-- ==== Sys2Proof/Word.lean ====
section
/-! DEFINITION. The widths of the values that cross the block's interface (spec/00_scope.md R6). Every value of this
hardware is unsigned (R8). -/

namespace Sys2Proof

/-- One byte of the slice (20_memory.md R30). -/
abbrev Byte := BitVec 8

/-- A command word, `CMD_W` = 64 bits (30_encoding.md R51). -/
abbrev CmdWord := BitVec 64

/-- A response value, `VAL_W` = 64 bits (30_encoding.md R60). -/
abbrev Value := BitVec 64

end Sys2Proof
end

