-- ==== Sys2Proof/Syntax.lean ====
section
/-! DEFINITION. The nine commands of spec/opcode_table.json (30_encoding.md R53), one constructor each. An operand's
type is exactly its field of the command word (R52), so every term is some word's command. -/

namespace Sys2Proof

/-- A decoded command (30_encoding.md R52, R53). -/
inductive Instr where
  /-- BIND len: `len` in bytes (40_bitreader.md R71). -/
  | bind (len : BitVec 32)
  /-- UNBIND (R72). -/
  | unbind
  /-- READ n: `n` in bits (R73). -/
  | read (n : BitVec 7)
  /-- PEEK n: `n` in bits (R75). -/
  | peek (n : BitVec 7)
  /-- SKIP n: `n` in bits (R76). -/
  | skip (n : BitVec 32)
  /-- POS (R77). -/
  | pos
  /-- ALIGN t: `t` an absolute bit position (R78). -/
  | align (t : BitVec 32)
  /-- VARF: the width table W[0..3], in bits, and the add flag (41_varfield.md R100). -/
  | varf (w0 w1 w2 w3 : BitVec 6) (add : Bool)
  /-- CRCCHK start, nbytes: `start` an absolute bit position, `nbytes` in bytes (42_crc16.md R120). -/
  | crcchk (start : BitVec 32) (nbytes : BitVec 24)
deriving DecidableEq, Repr

end Sys2Proof
end

