-- ==== Sys2Proof/Decode.lean ====
section
/-! DEFINITION. The decoder of a command word and the encoder, from the same tables: the fields of spec/30_encoding.md
R51, the formats of R52, the opcode map of R53 (spec/opcode_table.json), the decoding procedure of R59, and the byte
order of a stored word (R62). -/

namespace Sys2Proof

/-- Why a word, or a list of bytes, is no command. The block answers `E_ILLEGAL` to the first two
(60_exceptions.md R162). -/
inductive DecodeError where
  /-- `op` is none of the nine assigned values (30_encoding.md R57). -/
  | unassignedOpcode (op : BitVec 8)
  /-- `op` is assigned to the mnemonic and a bit its format marks "0" is set (R56). -/
  | reservedBitSet (mnemonic : String)
  /-- Fewer than the eight bytes of a command word (R51); only `decodeBytes` answers it (log entry 11). -/
  | truncated (bytes : Nat)
deriving DecidableEq, Repr

/-- A row of the opcode map (30_encoding.md R53). -/
structure OpRow where
  mnemonic : String
  pattern  : CmdWord
  mask     : CmdWord
deriving DecidableEq, Repr

def rowBind   : OpRow := ⟨"BIND",   0x0100000000000000#64, 0xFF00000000FFFFFF#64⟩
def rowUnbind : OpRow := ⟨"UNBIND", 0x0200000000000000#64, 0xFFFFFFFFFFFFFFFF#64⟩
def rowRead   : OpRow := ⟨"READ",   0x1000000000000000#64, 0xFFFFFFFFFFFFFF80#64⟩
def rowPeek   : OpRow := ⟨"PEEK",   0x1100000000000000#64, 0xFFFFFFFFFFFFFF80#64⟩
def rowSkip   : OpRow := ⟨"SKIP",   0x1200000000000000#64, 0xFF00000000FFFFFF#64⟩
def rowPos    : OpRow := ⟨"POS",    0x1300000000000000#64, 0xFFFFFFFFFFFFFFFF#64⟩
def rowAlign  : OpRow := ⟨"ALIGN",  0x1400000000000000#64, 0xFF00000000FFFFFF#64⟩
def rowVarf   : OpRow := ⟨"VARF",   0x2000000000000000#64, 0xFFFE000000FFFFFF#64⟩
def rowCrcchk : OpRow := ⟨"CRCCHK", 0x3000000000000000#64, 0xFF00000000000000#64⟩

/-- The opcode map (30_encoding.md R53). -/
def opRows : List OpRow :=
  [rowBind, rowUnbind, rowRead, rowPeek, rowSkip, rowPos, rowAlign, rowVarf, rowCrcchk]

/-- `op` = `cmd[63:56]` (30_encoding.md R51). -/
def fieldOp (w : CmdWord) : BitVec 8 := w.extractLsb' 56 8

/-- `a` = `cmd[55:24]` (R51). -/
def fieldA (w : CmdWord) : BitVec 32 := w.extractLsb' 24 32

/-- `b` = `cmd[23:0]` (R51). -/
def fieldB (w : CmdWord) : BitVec 24 := w.extractLsb' 0 24

/-- The count `n` = `cmd[6:0]` of format N (R52). -/
def fieldN (w : CmdWord) : BitVec 7 := w.extractLsb' 0 7

/-- Width-table entry `i` of format V: `W[i]` = `cmd[29+6i : 24+6i]` (R52). -/
def fieldW (i : Nat) (w : CmdWord) : BitVec 6 := w.extractLsb' (24 + 6 * i) 6

/-- The add flag of format V: `cmd[48]` (R52). -/
def fieldAdd (w : CmdWord) : Bool := w.getLsbD 48

/-- The word matches its opcode's row, or it has a reserved bit set (30_encoding.md R56, R59). -/
def matchRow (r : OpRow) (w : CmdWord) (i : Instr) : Except DecodeError Instr :=
  if w &&& r.mask = r.pattern then .ok i else .error (.reservedBitSet r.mnemonic)

/-- Decoding: total, and of the word alone (30_encoding.md R59). -/
def decode (w : CmdWord) : Except DecodeError Instr :=
  if fieldOp w = 0x01#8 then matchRow rowBind w (.bind (fieldA w))
  else if fieldOp w = 0x02#8 then matchRow rowUnbind w .unbind
  else if fieldOp w = 0x10#8 then matchRow rowRead w (.read (fieldN w))
  else if fieldOp w = 0x11#8 then matchRow rowPeek w (.peek (fieldN w))
  else if fieldOp w = 0x12#8 then matchRow rowSkip w (.skip (fieldA w))
  else if fieldOp w = 0x13#8 then matchRow rowPos w .pos
  else if fieldOp w = 0x14#8 then matchRow rowAlign w (.align (fieldA w))
  else if fieldOp w = 0x20#8 then
    matchRow rowVarf w (.varf (fieldW 0 w) (fieldW 1 w) (fieldW 2 w) (fieldW 3 w) (fieldAdd w))
  else if fieldOp w = 0x30#8 then matchRow rowCrcchk w (.crcchk (fieldA w) (fieldB w))
  else .error (.unassignedOpcode (fieldOp w))

/-- The three fixed fields side by side (30_encoding.md R51). -/
def packWord (op : BitVec 8) (a : BitVec 32) (b : BitVec 24) : CmdWord := op ++ a ++ b

/-- The operand `a` of format V: seven zero bits, add, W[3], W[2], W[1], W[0] (R52). -/
def packWidths (w0 w1 w2 w3 : BitVec 6) (add : Bool) : BitVec 32 :=
  0#7 ++ BitVec.ofBool add ++ w3 ++ w2 ++ w1 ++ w0

/-- The operand `b` of format N: seventeen zero bits and the count (R52). -/
def packCount (n : BitVec 7) : BitVec 24 := 0#17 ++ n

/-- The command word of a command (30_encoding.md R51 to R53). -/
def encode : Instr → CmdWord
  | .bind len => packWord 0x01#8 len 0#24
  | .unbind => packWord 0x02#8 0#32 0#24
  | .read n => packWord 0x10#8 0#32 (packCount n)
  | .peek n => packWord 0x11#8 0#32 (packCount n)
  | .skip n => packWord 0x12#8 n 0#24
  | .pos => packWord 0x13#8 0#32 0#24
  | .align t => packWord 0x14#8 t 0#24
  | .varf w0 w1 w2 w3 add => packWord 0x20#8 (packWidths w0 w1 w2 w3 add) 0#24
  | .crcchk start nbytes => packWord 0x30#8 start nbytes

/-- A word as eight bytes, most significant first (30_encoding.md R62); a response value is written the same way. -/
def wordBytes (w : BitVec 64) : List Byte :=
  [w.extractLsb' 56 8, w.extractLsb' 48 8, w.extractLsb' 40 8, w.extractLsb' 32 8,
   w.extractLsb' 24 8, w.extractLsb' 16 8, w.extractLsb' 8 8, w.extractLsb' 0 8]

/-- Decode the first eight bytes of a list, most significant byte first, and give the bytes left (R62). -/
def decodeBytes : List Byte → Except DecodeError (Instr × List Byte)
  | b0 :: b1 :: b2 :: b3 :: b4 :: b5 :: b6 :: b7 :: rest =>
    match decode (b0 ++ b1 ++ b2 ++ b3 ++ b4 ++ b5 ++ b6 ++ b7) with
    | .ok i => .ok (i, rest)
    | .error e => .error e
  | bs => .error (.truncated bs.length)

/-- The bytes of a command as a test or trace stores it (R62). -/
def encodeBytes (i : Instr) : List Byte := wordBytes (encode i)

/-- The word whose low `nbits` bits are those of `w`, every bit above them zero. -/
def tableWord (nbits w : Nat) : CmdWord := BitVec.ofNat 64 (w % 2 ^ nbits)

/-- What the decoder reads from the word spec/opcode_table.json numbers as `w`, stored as its bytes (R62). -/
def decodeTableWord (nbits w : Nat) : Option Instr :=
  match decodeBytes (wordBytes (tableWord nbits w)) with
  | .ok (i, _) => some i
  | .error _ => none

end Sys2Proof
end

