-- ==== Sys2Proof/Machine/Response.lean ====
section
/-! DEFINITION. What the block answers a command with: a status and a value (spec/30_encoding.md R60,
60_exceptions.md R160). -/

namespace Sys2Proof.Machine

/-- The five status values (60_exceptions.md R160); "all others are never produced" (93 U15). Four of them are the
block's faults. A fault is a response, not a stop (R161, R169): `raise` in Machine/Ops.lean takes it. -/
inductive Status where
  /-- 0x00: the command executed. -/
  | ok
  /-- 0x01: the word is not a command (R162). -/
  | eIllegal
  /-- 0x02: the command needs a bound slice and there is none (R163). -/
  | eNull
  /-- 0x03: an operand is outside its legal range, or `pos` would pass `POS_MAX` (R164). -/
  | eRange
  /-- 0x04: the ALIGN target lies before the cursor (R165). -/
  | eBackward
deriving DecidableEq, Repr

/-- One response: `(status, value)` (30_encoding.md R60). -/
structure Response where
  status : Status
  value  : Value
deriving DecidableEq, Repr

end Sys2Proof.Machine
end

