-- ==== Sys2Proof/Config.lean ====
section
/-! DEFINITION. The parameters of the block (spec/00_scope.md R6) that a rule computes with, and the two free values.
The widths `CMD_W`, `VAL_W`, `POS_W`, `NB_W`, `CRC_W` are the widths of the types; `N_FAST` enters no rule
(40_bitreader.md R74); `N_INST` is the length of a platform (Machine/Platform.lean). -/

namespace Sys2Proof.Config

/-- `N_MIN`: the smallest bit count of a READ or PEEK (R6). -/
abbrev nMin : Nat := 1

/-- `N_MAX`: the largest bit count of a READ or PEEK (R6). -/
abbrev nMax : Nat := 64

/-- `POS_MAX` = 2^32 - 1: the largest value `pos` may hold (R6, D4). -/
abbrev posMax : Nat := 2 ^ 32 - 1

/-- `LEN_MAX` = 2^29 - 1: the largest slice length in bytes (R6, D4). -/
abbrev lenMax : Nat := 2 ^ 29 - 1

/-- `VF_PREFIX`: the bits of a VarField prefix that are looked at (R6). -/
abbrev vfPrefix : Nat := 3

/-- `VF_WMAX`: the largest legal entry of a width table (R6, D15). -/
abbrev vfWMax : Nat := 32

/-- `CRC_INIT`: the CRC register at the start of every check, and after reset (R6, 10_state.md R23). -/
def crcInit : BitVec 16 := 0xFFFF#16

/-- `CRC_POLY`: the generator polynomial, top term implicit (R6, 42_crc16.md R115). -/
def crcPoly : BitVec 16 := 0x1021#16

/-- FREE VALUE (log entry 5; 20_memory.md R38, 93 U6). Which of the bytes a changed slice address has held during this
binding one `MemRead` returns: arguments are the state's counter, which of the command's two looks at the stream it
is (0, or 1 for a VARF value field), and the bit position. 0 is the byte now in place, k + 1 the k-th older one; any
other number the byte now in place. DESIGN CHOICE: nothing else decides it, so two instances of a platform, or two runs,
whose counters agree make the same choice (log entry 5). It has no body: no proof can see a value of it. -/
opaque staleChoice : Nat → Nat → Nat → Nat

/-- FREE VALUE (log entry 6; 70_reset_and_hazards.md R180, 93 U9). Whether a command that reset cuts off is answered, and
with what, from the state's counter. DESIGN CHOICE: nothing else decides it, so two instances or two runs whose counters
agree have the same answer (log entry 6). It has no body: no proof can see a value of it. -/
opaque cutOffResponse : Nat → Option Machine.Response

end Sys2Proof.Config
end

