-- ==== Sys2Proof/Machine/State.lean ====
section
/-! DEFINITION. The state of one instance with the host's side of its interface (spec/10_state.md; INVENTORY.md
'## State'), the reasons a step can stop, and the state after reset. -/

namespace Sys2Proof.Machine

/-- The registers of one instance: "exactly these registers and no other state" (10_state.md R10). -/
structure Regs where
  /-- 1 while the block holds a slice (R11). -/
  bound : Bool
  /-- The length of the bound slice in bytes; 0 while unbound (R12). -/
  len   : BitVec 29
  /-- The cursor, in bits from the most significant bit of byte 0 (R13). -/
  pos   : BitVec 32
  /-- The CRC register (R15). -/
  crc   : BitVec 16
deriving DecidableEq, Repr

/-- The registers after reset (10_state.md R23). -/
def Regs.reset : Regs := ⟨false, 0#29, 0#32, Config.crcInit⟩

/-- Bytes by slice address, strictly rising, none equal to what an unlisted address reads as. -/
abbrev Memory := List Host.Cell

/-- One thing the host does to the instance. The model takes one a step, in list order (log entry 2). -/
inductive HostEvent where
  /-- The host presents a command word (30_encoding.md R50). -/
  | command (w : CmdWord)
  /-- Reset between two commands (70_reset_and_hazards.md R180). -/
  | reset
  /-- The host presents the word and reset arrives in the middle of it (R180, 93 U9; log entry 6). -/
  | resetDuring (w : CmdWord)
  /-- The host stores a byte at a slice address: its business while unbound (R182), a breach of 20_memory.md R38
  inside a bound slice (log entries 4 and 5). -/
  | store (addr : BitVec 29) (b : Byte)
deriving DecidableEq, Repr

/-- One instance and the host's side of its interface. -/
structure State where
  /-- The four registers (10_state.md R10). -/
  regs       : Regs
  /-- The bytes the host makes readable at slice addresses (R19, 20_memory.md R30, R39). -/
  mem        : Memory
  /-- The older bytes of slice addresses the host changed during this binding, newest first (R38; log entry 5). -/
  superseded : List Host.Cell
  /-- What the host does next, oldest first (30_encoding.md R50, 70_reset_and_hazards.md R183; log entry 2). -/
  host       : List HostEvent
  /-- Every response given, oldest first (30_encoding.md R60, 70_reset_and_hazards.md R183). -/
  responses  : List Response
  /-- The model's own counter, read only by the free values (log entry 7). -/
  tick       : Nat
deriving DecidableEq, Repr

/-- Reasons to stop with a fault. There are none: a fault of the block is a response and leaves the block ready for
the next command (60_exceptions.md R161, R169), and there is no halt and no stuck state (70_reset_and_hazards.md
R183). Nobody raises one. -/
inductive Fault where
deriving DecidableEq, Repr

/-- Reasons to give no meaning. -/
inductive Refusal where
  /-- Raised by an arm of `exec` for a command that has no meaning yet: safe. No arm raises it: every command of
  spec/opcode_table.json has its meaning. -/
  | notModelled (mnemonic : String)
deriving DecidableEq, Repr

/-- The machine right after reset: the registers as 10_state.md R23 gives them, no byte stored by the host, nothing
presented and nothing answered yet (log entries 2, 3, 5, 7). -/
def State.reset : State where
  regs := Regs.reset
  mem := []
  superseded := []
  host := []
  responses := []
  tick := 0

end Sys2Proof.Machine
end

