-- ==== Sys2Proof/Machine/Ops.lean ====
section
/-! DEFINITION. The named operations every meaning is written over: the bytes of the slice and the stream primitives
(spec/20_memory.md), register writes, answering a command and taking a fault (spec/60_exceptions.md), and what the
host's own acts do (spec/70_reset_and_hazards.md). -/

namespace Sys2Proof.Machine

/-- What a slice address no byte was stored at reads as (log entry 3: DESIGN CHOICE). -/
def unlistedByte : Byte := 0#8

/-- The byte now in place at an address. -/
def memGet : Memory → Nat → Byte
  | [], _ => unlistedByte
  | (a, b) :: m, x => if x = a then b else memGet m x

/-- Put a byte in place, keeping the canonical form. -/
def memSet : Memory → Nat → Byte → Memory
  | [], x, v => if v = unlistedByte then [] else [(x, v)]
  | (a, b) :: m, x, v =>
    if x < a then (if v = unlistedByte then (a, b) :: m else (x, v) :: (a, b) :: m)
    else if x = a then (if v = unlistedByte then m else (a, v) :: m)
    else (a, b) :: memSet m x v

/-- The canonical form: addresses strictly rising, no entry equal to what an unlisted address reads as. -/
abbrev Memory.wf (m : Memory) : Prop :=
  m.Pairwise (fun c d => c.1 < d.1) ∧ ∀ c ∈ m, c.2 ≠ unlistedByte

/-- The older bytes an address has held during this binding, newest first. -/
def olderBytes (s : State) (addr : Nat) : List Byte :=
  (s.superseded.filter (fun c => c.1 == addr)).map (fun c => c.2)

/-- `MemRead(addr, 1)` (20_memory.md R30), made for bit position `p` in the command's look number `look`. While the
host keeps the slice as it was bound this is the byte in place; after a change under the binding it is any byte the
address has held since (R38; log entry 5). DESIGN CHOICE: R38 lets each `MemRead` choose by itself; here the counter,
the look and the position decide, and not the instance, so two instances at equal counters choose alike at a position
(log entries 5 and 10). -/
def memRead (s : State) (look p addr : Nat) : Byte :=
  match olderBytes s addr with
  | [] => memGet s.mem addr
  | o :: os => (memGet s.mem addr :: o :: os).getD (Config.staleChoice s.tick look p) (memGet s.mem addr)

/-- `bit(p)` (20_memory.md R31): 0 at and past the end of the slice, where no byte is read (R37). -/
def bit (s : State) (look p : Nat) : Nat :=
  if p ≥ 8 * s.regs.len.toNat then 0
  else ((memRead s look p (p / 8)).toNat >>> (7 - p % 8)) % 2

/-- `bits(p, n)` (20_memory.md R32): the n bits from `p` on, the first one most significant. -/
def bits (s : State) (look p : Nat) : Nat → Nat
  | 0 => 0
  | n + 1 => bits s look p n * 2 + bit s look (p + n)

/-- `pos <- p` (10_state.md R13). -/
def setPos (p : BitVec 32) (s : State) : State := { s with regs := { s.regs with pos := p } }

/-- `crc <- c` (10_state.md R15). -/
def setCrc (c : BitVec 16) (s : State) : State := { s with regs := { s.regs with crc := c } }

/-- A new binding: the slice of `len` bytes, the cursor at its first bit (40_bitreader.md R71). No byte of it has been
changed under this binding yet: DEDUCED, R38 says so only of UNBIND and reset (log entry 5). -/
def bindSlice (len : BitVec 29) (s : State) : State :=
  { s with regs := { s.regs with bound := true, len := len, pos := 0#32 }, superseded := [] }

/-- The end of a binding (40_bitreader.md R72): nothing of the slice is held any more (20_memory.md R38). -/
def dropSlice (s : State) : State :=
  { s with regs := { s.regs with bound := false, len := 0#29, pos := 0#32 }, superseded := [] }

/-- Give the command's one response (30_encoding.md R60). -/
def answer (st : Status) (v : Value) (s : State) : State :=
  { s with responses := s.responses ++ [⟨st, v⟩], tick := s.tick + 1 }

/-- `respond(v)` (00_scope.md R8): the command ends normally. -/
def respond (v : Value) (s : State) : State := answer .ok v s

/-- `raise <Fault>` (00_scope.md R8, 60_exceptions.md R161): no register changes, the response is the fault's code with
value 0, and the block is ready for the next command. -/
def raise (f : Status) (s : State) : State := answer f 0#64 s

/-- The 8-bit code of a status (60_exceptions.md R160). -/
def statusCode : Status → BitVec 8
  | .ok => 0x00#8
  | .eIllegal => 0x01#8
  | .eNull => 0x02#8
  | .eRange => 0x03#8
  | .eBackward => 0x04#8

/-- The answer to a word that is no command (60_exceptions.md R162): whatever is wrong with it, `E_ILLEGAL`. -/
def rejectWord (_why : DecodeError) (s : State) : State := raise .eIllegal s

/-- Take the host's next act off its list: the block's only way to come by a command (30_encoding.md R50). -/
def nextEvent (s : State) : Option (HostEvent × State) :=
  match s.host with
  | [] => none
  | e :: rest => some (e, { s with host := rest })

/-- Reset (70_reset_and_hazards.md R180): the registers at their reset values, no response, nothing of the slice held. -/
def applyReset (s : State) : State := { s with regs := Regs.reset, superseded := [] }

/-- Reset in the middle of a command (R180, 93 U9): the reset state, and a response or none, free (log entry 6). -/
def cutOff (_w : CmdWord) (s : State) : State :=
  { applyReset s with
    responses := s.responses ++ (Config.cutOffResponse s.tick).toList, tick := s.tick + 1 }

/-- The host stores a byte at a slice address. If that changes a byte of the bound slice, the older byte stays
readable until the binding ends (20_memory.md R38; log entries 4 and 5). -/
def hostStore (addr : BitVec 29) (b : Byte) (s : State) : State :=
  { s with
    mem := memSet s.mem addr.toNat b
    superseded :=
      if s.regs.bound = true ∧ addr.toNat < s.regs.len.toNat ∧ memGet s.mem addr.toNat ≠ b then
        (addr.toNat, memGet s.mem addr.toNat) :: s.superseded
      else s.superseded }

end Sys2Proof.Machine
end

