-- ==== Sys2Proof/WellFormed.lean ====
section
/-! DEFINITION. The legal operand ranges that a field's width does not enforce (spec/30_encoding.md R54). Every term of
`Instr` is encodable by its types; a term outside these ranges still decodes and executes, and answers a fault
(log entry 9). -/

namespace Sys2Proof

/-- A slice length a BIND may take (60_exceptions.md R164a). -/
def lengthLegal (len : BitVec 32) : Bool := decide (len.toNat ≤ Config.lenMax)

/-- A bit count a READ or PEEK may take (R164b). -/
def countLegal (n : BitVec 7) : Bool := decide (Config.nMin ≤ n.toNat ∧ n.toNat ≤ Config.nMax)

/-- A width a VARF table may hold (R164d). -/
def widthLegal (w : BitVec 6) : Bool := decide (w.toNat ≤ Config.vfWMax)

/-- Every operand of the command is in its legal range (30_encoding.md R54). -/
def wellFormed : Instr → Bool
  | .bind len => lengthLegal len
  | .unbind => true
  | .read n => countLegal n
  | .peek n => countLegal n
  | .skip _ => true
  | .pos => true
  | .align _ => true
  | .varf w0 w1 w2 w3 _ => widthLegal w0 && widthLegal w1 && widthLegal w2 && widthLegal w3
  | .crcchk _ _ => true

end Sys2Proof
end

