-- ==== Sys2Proof/Machine/Operands.lean ====
section
/-! DEFINITION. What the commands share about their operands: the bound-slice check, the range checks in the order of
spec/60_exceptions.md R167, the move of the cursor, and the VarField table and prefix (spec/41_varfield.md). -/

namespace Sys2Proof.Machine

/-- The check every command but BIND and UNBIND makes first (60_exceptions.md R163, R167). -/
def needSlice (s : State) (k : State) : State := if s.regs.bound = true then k else raise .eNull s

/-- The operand range check of a command (60_exceptions.md R164, R167). -/
def needRange (legal : Bool) (s : State) (k : State) : State := if legal = true then k else raise .eRange s

/-- `pos <- pos + n; respond(v)`, unless the new `pos` would exceed `POS_MAX` (10_state.md R13, 60_exceptions.md
R164c): `pos` never wraps. -/
def advance (n : Nat) (v : Value) (s : State) : State :=
  if s.regs.pos.toNat + n > Config.posMax then raise .eRange s
  else respond v (setPos (BitVec.ofNat 32 (s.regs.pos.toNat + n)) s)

/-- The width table of a VARF: `W[k]` (41_varfield.md R100). -/
def varfWidth (w0 w1 w2 w3 : BitVec 6) : Nat → Nat
  | 0 => w0.toNat
  | 1 => w1.toNat
  | 2 => w2.toNat
  | _ => w3.toNat

/-- `base(k)` = the sum of `2^W[j]` for j below k (41_varfield.md R101, R104). -/
def varfBase (W : Nat → Nat) : Nat → Nat
  | 0 => 0
  | k + 1 => varfBase W k + 2 ^ W k

/-- The prefix table: `(index, bits_used)` of the 3-bit number P (41_varfield.md R102). -/
def prefixTable (P : Nat) : Nat × Nat :=
  if P ≤ 3 then (0, 1) else if P ≤ 5 then (1, 2) else if P = 6 then (2, 3) else (3, 3)

/-- The value of a VarField at the cursor, once its index and prefix length are known (41_varfield.md R101). The value
field is a second look at the stream: nothing of the prefix was buffered (R103, 10_state.md R22b). -/
def varfValue (s : State) (W : Nat → Nat) (add : Bool) (index used : Nat) : Nat :=
  (if W index > 0 then bits s 1 (s.regs.pos.toNat + used) (W index) else 0)
    + (if add = true then varfBase W index else 0)

end Sys2Proof.Machine
end

