-- ==== Sys2Proof/Machine/Binding.lean ====
section
/-! DEFINITION. The binding commands BIND and UNBIND (spec/40_bitreader.md section 2). Neither needs a bound slice. -/

namespace Sys2Proof.Machine

/-- BIND len (40_bitreader.md R71). -/
def execBind (len : BitVec 32) (s : State) : Host.Outcome State Fault Refusal :=
  .next (needRange (lengthLegal len) s (respond 0#64 (bindSlice (len.setWidth 29) s)))

/-- UNBIND (R72). -/
def execUnbind (s : State) : Host.Outcome State Fault Refusal :=
  .next (respond 0#64 (dropSlice s))

end Sys2Proof.Machine
end

