-- ==== Sys2Proof/Machine/Flags.lean ====
section
/-! DEFINITION. The block has no flag register and no condition codes (spec/10_state.md R17). The two yes-or-no facts
the rules speak of are here: the overrun predicate, which is no register (R16), and the `valid` bit of a CRCCHK
response (spec/42_crc16.md R120). -/

namespace Sys2Proof.Machine

/-- `overrun`: bound, and the cursor past the end of the slice (10_state.md R16). -/
def overrun (s : State) : Bool := s.regs.bound && decide (s.regs.pos.toNat > 8 * s.regs.len.toNat)

/-- `valid`: 1 when the residual is zero (42_crc16.md R120). -/
def validBit (c : BitVec 16) : BitVec 1 := if c = 0#16 then 1#1 else 0#1

/-- The response value of a CRCCHK: bit 16 is `valid`, bits 15..0 the residual (30_encoding.md R60). -/
def crcValue (c : BitVec 16) : Value := 0#47 ++ validBit c ++ c

end Sys2Proof.Machine
end

