-- ==== Sys2Proof/Machine/Crc16.lean ====
section
/-! DEFINITION. The CRC-16 check CRCCHK (spec/42_crc16.md). -/

namespace Sys2Proof.Machine

/-- The table `T` (42_crc16.md R117), a constant of the block (10_state.md R18). -/
def crcTable : List (BitVec 16) :=
  [0x0000#16, 0x1021#16, 0x2042#16, 0x3063#16, 0x4084#16, 0x50A5#16, 0x60C6#16, 0x70E7#16,
   0x8108#16, 0x9129#16, 0xA14A#16, 0xB16B#16, 0xC18C#16, 0xD1AD#16, 0xE1CE#16, 0xF1EF#16]

/-- `T[i]`. -/
def crcEntry (i : BitVec 4) : BitVec 16 := crcTable.getD i.toNat 0#16

/-- `crc_step(c, nib)` (42_crc16.md R118): a 16-bit shift (R116), the table indexed by the register's top nibble
exclusive-or the input nibble. -/
def crcStep (c : BitVec 16) (nib : BitVec 4) : BitVec 16 :=
  (c <<< 4) ^^^ crcEntry (c.extractLsb' 12 4 ^^^ nib)

/-- The register after `k` nibbles of the stream taken from bit position `p` on (42_crc16.md R119). -/
def crcNibbles (s : State) : Nat → Nat → BitVec 16 → BitVec 16
  | 0, _, c => c
  | k + 1, p, c => crcNibbles s k (p + 4) (crcStep c (BitVec.ofNat 4 (bits s 0 p 4)))

/-- `crc_window(start, nbytes)` (42_crc16.md R119). -/
def crcWindow (s : State) (start nbytes : Nat) : BitVec 16 :=
  crcNibbles s (2 * nbytes) start Config.crcInit

/-- CRCCHK start, nbytes (42_crc16.md R120): the cursor is neither read nor written (R121), and a residual other than
zero is no fault (60_exceptions.md R166b). -/
def execCrcchk (start : BitVec 32) (nbytes : BitVec 24) (s : State) : Host.Outcome State Fault Refusal :=
  .next (needSlice s
    (respond (crcValue (crcWindow s start.toNat nbytes.toNat))
      (setCrc (crcWindow s start.toNat nbytes.toNat) s)))

end Sys2Proof.Machine
end

