-- ==== Sys2Proof/Machine/Cursor.lean ====
section
/-! DEFINITION. The cursor commands READ, PEEK, SKIP, POS and ALIGN (spec/40_bitreader.md sections 3 and 4). -/

namespace Sys2Proof.Machine

/-- READ n (40_bitreader.md R73). -/
def execRead (n : BitVec 7) (s : State) : Host.Outcome State Fault Refusal :=
  .next (needSlice s (needRange (countLegal n) s
    (advance n.toNat (BitVec.ofNat 64 (bits s 0 s.regs.pos.toNat n.toNat)) s)))

/-- PEEK n (R75): as READ without moving, so without the check on the new `pos`. -/
def execPeek (n : BitVec 7) (s : State) : Host.Outcome State Fault Refusal :=
  .next (needSlice s (needRange (countLegal n) s
    (respond (BitVec.ofNat 64 (bits s 0 s.regs.pos.toNat n.toNat)) s)))

/-- SKIP n (R76): any 32-bit count; no bit of the stream is read. -/
def execSkip (n : BitVec 32) (s : State) : Host.Outcome State Fault Refusal :=
  .next (needSlice s (advance n.toNat 0#64 s))

/-- POS (R77). -/
def execPos (s : State) : Host.Outcome State Fault Refusal :=
  .next (needSlice s (respond (s.regs.pos.setWidth 64) s))

/-- ALIGN t (R78): forward only. -/
def execAlign (t : BitVec 32) (s : State) : Host.Outcome State Fault Refusal :=
  .next (needSlice s
    (if t.toNat < s.regs.pos.toNat then raise .eBackward s else respond 0#64 (setPos t s)))

end Sys2Proof.Machine
end

