-- ==== Sys2Proof/Machine/Varfield.lean ====
section
/-! DEFINITION. The VarField command VARF (spec/41_varfield.md). -/

namespace Sys2Proof.Machine

/-- VARF with a legal table, on a bound slice (41_varfield.md R101): look at three bits, consume `bits_used` of them
and the value field, answer the value. -/
def decodeVarfield (W : Nat → Nat) (add : Bool) (s : State) : State :=
  match prefixTable (bits s 0 s.regs.pos.toNat Config.vfPrefix) with
  | (index, used) => advance (used + W index) (BitVec.ofNat 64 (varfValue s W add index used)) s

/-- VARF {w0,w1,w2,w3}, add (41_varfield.md R101). All four widths are checked before the stream is looked at
(R106d). -/
def execVarf (w0 w1 w2 w3 : BitVec 6) (add : Bool) (s : State) : Host.Outcome State Fault Refusal :=
  .next (needSlice s
    (needRange (widthLegal w0 && widthLegal w1 && widthLegal w2 && widthLegal w3) s
      (decodeVarfield (varfWidth w0 w1 w2 w3) add s)))

end Sys2Proof.Machine
end

