-- ==== Sys2Proof/Machine/Dispatch.lean ====
section
/-! DEFINITION. One arm per command of spec/opcode_table.json. -/

namespace Sys2Proof.Machine

def exec (i : Instr) (s : State) : Host.Outcome State Fault Refusal :=
  match i with
  | .bind len => Sys2Proof.Machine.execBind len s
  | .unbind => Sys2Proof.Machine.execUnbind s
  | .read n => Sys2Proof.Machine.execRead n s
  | .peek n => Sys2Proof.Machine.execPeek n s
  | .skip n => Sys2Proof.Machine.execSkip n s
  | .pos => Sys2Proof.Machine.execPos s
  | .align t => Sys2Proof.Machine.execAlign t s
  | .varf w0 w1 w2 w3 add => Sys2Proof.Machine.execVarf w0 w1 w2 w3 add s
  | .crcchk start nbytes => Sys2Proof.Machine.execCrcchk start nbytes s

end Sys2Proof.Machine
end

