-- ==== Sys2Proof/Machine/Step.lean ====
section
/-! DEFINITION. One step: the host's next act, taken whole (spec/30_encoding.md R50, 20_memory.md R40). With nothing
left on the host's list the block "simply holds its four registers" (60_exceptions.md R173). -/

namespace Sys2Proof.Machine

/-- One step of the machine (log entry 1). -/
def step (s : State) : Host.Outcome State Fault Refusal :=
  match nextEvent s with
  | none => .next s
  | some (.command w, t) =>
    match decode w with
    | .ok i => exec i t
    | .error e => .next (rejectWord e t)
  | some (.reset, t) => .next (applyReset t)
  | some (.resetDuring w, t) => .next (cutOff w t)
  | some (.store addr b, t) => .next (hostStore addr b t)

/-- `s` with the host about to present the word (log entry 2: a program comes from the host, not from memory). -/
def State.withFetchWord (s : State) (nbits w : Nat) : State :=
  { s with host := .command (tableWord nbits w) :: s.host }

end Sys2Proof.Machine
end

