-- ==== Sys2Proof/Machine/Coding.lean ====
section
/-! DEFINITION. The two derived facts the spec gives for building test data, neither of which the block computes: the
VarField encoder (spec/41_varfield.md R105) and the bit-serial form of the CRC (spec/42_crc16.md R123). -/

namespace Sys2Proof.Machine

/-- The index whose range holds the value: base(k) ≤ v < base(k + 1) (41_varfield.md R105). -/
def varfIndexOf (W : Nat → Nat) (v : Nat) : Nat :=
  if v < varfBase W 1 then 0 else if v < varfBase W 2 then 1 else if v < varfBase W 3 then 2 else 3

/-- How many prefix bits index k consumes (41_varfield.md R102). -/
def varfUsed : Nat → Nat
  | 0 => 1
  | 1 => 2
  | _ => 3

/-- The consumed prefix bits of index k as a number: `0`, `10`, `110`, `111` (41_varfield.md R102). -/
def varfMark : Nat → Nat
  | 0 => 0
  | 1 => 2
  | 2 => 6
  | _ => 7

/-- The length in bits of the code of a value (41_varfield.md R105). -/
def varfCodeLength (W : Nat → Nat) (v : Nat) : Nat :=
  varfUsed (varfIndexOf W v) + W (varfIndexOf W v)

/-- The code of a value as a number of `varfCodeLength` bits: the prefix bits, then v - base(k) in `W[k]` bits
(41_varfield.md R105). -/
def varfCode (W : Nat → Nat) (v : Nat) : Nat :=
  varfMark (varfIndexOf W v) * 2 ^ W (varfIndexOf W v) + (v - varfBase W (varfIndexOf W v))

/-- The one-bit update of the CRC register (42_crc16.md R123). -/
def crcBitStep (c : BitVec 16) (b : Bool) : BitVec 16 :=
  (c <<< 1) ^^^ (if c.getLsbD 15 ^^ b then Config.crcPoly else 0#16)

end Sys2Proof.Machine
end

