-- ==== Sys2Proof/Machine/Platform.lean ====
section
/-! DEFINITION. A platform of `N_INST` instances (spec/60_exceptions.md R174; 92 D3). Instances share no state, only the
constant table `T`, and send each other nothing; which one acts next is the platform's business (log entry 10). The free values are shared: instances whose counters
agree make the same free choices (DESIGN CHOICE, log entries 5, 6 and 10). -/

namespace Sys2Proof.Machine

/-- The instances of a platform; `N_INST` is the length of the list. -/
structure Platform where
  instances : List State
deriving DecidableEq, Repr

/-- Instance `k` takes one step; an index that names no instance changes nothing. -/
def platformStep (p : Platform) (k : Nat) : Host.Outcome Platform Fault Refusal :=
  match p.instances[k]? with
  | none => .next p
  | some s =>
    match step s with
    | .next t => .next ⟨p.instances.set k t⟩
    | .fault f => .fault f
    | .refused r => .refused r

/-- A platform of `n` instances after reset. -/
def platformReset (n : Nat) : Platform := ⟨List.replicate n State.reset⟩

end Sys2Proof.Machine
end

