-- ==== Sys2Proof/Safety.lean ====
section
/-! DEFINITION. The terms claims are stated in: what a state after a command is, what every reachable state satisfies,
and the host's duties (spec/70_reset_and_hazards.md section 3). -/

namespace Sys2Proof.Machine

/-- The state after a command that succeeded: the registers `r`, and one response `(OK, v)` more. -/
def answered (s : State) (r : Regs) (v : Value) : State :=
  { s with regs := r, responses := s.responses ++ [⟨.ok, v⟩], tick := s.tick + 1 }

/-- The state after a command that faulted: no register changed, and one response `(f, 0)` more
(60_exceptions.md R161). -/
def faulted (s : State) (f : Status) : State :=
  { s with responses := s.responses ++ [⟨f, 0#64⟩], tick := s.tick + 1 }

/-- The command answered with status `st`. -/
def answers (s t : State) (st : Status) : Prop := ∃ v, t.responses = s.responses ++ [⟨st, v⟩]

/-- The host has changed no byte of the slice during this binding (20_memory.md R38, 70_reset_and_hazards.md R188). -/
abbrev sliceKept (s : State) : Prop := s.superseded = []

/-- The host's duty before a CRCCHK (70_reset_and_hazards.md R185): the window lies inside the slice. -/
abbrev windowInside (s : State) (start nbytes : Nat) : Prop := start + 8 * nbytes ≤ 8 * s.regs.len.toNat

/-- What every reachable state satisfies: the canonical form of memory; `len` and `pos` are 0 and nothing is held of a
slice while unbound (10_state.md R10, R12, 40_bitreader.md R72); only bytes of the bound slice can be in doubt. -/
abbrev State.Inv (s : State) : Prop :=
  Memory.wf s.mem
    ∧ (s.regs.bound = false → s.regs.len = 0#29 ∧ s.regs.pos = 0#32 ∧ s.superseded = [])
    ∧ ∀ c ∈ s.superseded, c.1 < s.regs.len.toNat

/-- The command ends the binding or starts another: after it `pos` may be smaller (40_bitreader.md R80). -/
def rebinds : Instr → Bool
  | .bind _ => true
  | .unbind => true
  | .read _ => false
  | .peek _ => false
  | .skip _ => false
  | .pos => false
  | .align _ => false
  | .varf _ _ _ _ _ => false
  | .crcchk _ _ => false

/-- The command looks at stream bits (10_state.md R21). -/
def readsStream : Instr → Bool
  | .bind _ => false
  | .unbind => false
  | .read _ => true
  | .peek _ => true
  | .skip _ => false
  | .pos => false
  | .align _ => false
  | .varf _ _ _ _ _ => true
  | .crcchk _ _ => true

/-- The command needs a bound slice (60_exceptions.md R163). -/
def needsSlice : Instr → Bool
  | .bind _ => false
  | .unbind => false
  | .read _ => true
  | .peek _ => true
  | .skip _ => true
  | .pos => true
  | .align _ => true
  | .varf _ _ _ _ _ => true
  | .crcchk _ _ => true

/-- A row of the prefix table: the 3-bit number P selects `index` and consumes `used` bits (41_varfield.md R102). -/
def prefixRow (P index used : Nat) : Prop :=
  (P ≤ 3 ∧ index = 0 ∧ used = 1) ∨ (4 ≤ P ∧ P ≤ 5 ∧ index = 1 ∧ used = 2)
    ∨ (P = 6 ∧ index = 2 ∧ used = 3) ∨ (P = 7 ∧ index = 3 ∧ used = 3)

/-- All four entries of a width table are legal (41_varfield.md R100). -/
abbrev widthsAtMost32 (w0 w1 w2 w3 : BitVec 6) : Prop :=
  w0.toNat ≤ 32 ∧ w1.toNat ≤ 32 ∧ w2.toNat ≤ 32 ∧ w3.toNat ≤ 32

/-- The position a successful command leaves the cursor at (10_state.md R13, R21). -/
def newPos (i : Instr) (s : State) : Nat :=
  match i with
  | .bind _ => 0
  | .unbind => 0
  | .read n => s.regs.pos.toNat + n.toNat
  | .peek _ => s.regs.pos.toNat
  | .skip n => s.regs.pos.toNat + n.toNat
  | .pos => s.regs.pos.toNat
  | .align t => t.toNat
  | .varf w0 w1 w2 w3 _ =>
    match prefixTable (bits s 0 s.regs.pos.toNat 3) with
    | (index, used) => s.regs.pos.toNat + used + varfWidth w0 w1 w2 w3 index
  | .crcchk _ _ => s.regs.pos.toNat

/-- The target of an ALIGN lies before the cursor (60_exceptions.md R165). -/
def alignsBackward (i : Instr) (s : State) : Bool :=
  match i with
  | .align t => decide (t.toNat < s.regs.pos.toNat)
  | .bind _ | .unbind | .read _ | .peek _ | .skip _ | .pos | .varf _ _ _ _ _ | .crcchk _ _ => false

/-- The status of a command word by the fixed order of checks (60_exceptions.md R167). -/
def firstFault (w : CmdWord) (s : State) : Status :=
  match decode w with
  | .error _ => .eIllegal
  | .ok i =>
    if needsSlice i = true ∧ s.regs.bound = false then .eNull
    else if wellFormed i = false then .eRange
    else if newPos i s > 2 ^ 32 - 1 then .eRange
    else if alignsBackward i s = true then .eBackward
    else .ok

/-- The cases of `E_RANGE` (60_exceptions.md R164), on a bound slice where the command needs one (R167). -/
def rangeFaultCase (i : Instr) (s : State) : Prop :=
  match i with
  | .bind len => 2 ^ 29 - 1 < len.toNat
  | .read n => s.regs.bound = true ∧ (n.toNat = 0 ∨ 64 < n.toNat ∨ 2 ^ 32 - 1 < s.regs.pos.toNat + n.toNat)
  | .peek n => s.regs.bound = true ∧ (n.toNat = 0 ∨ 64 < n.toNat)
  | .skip n => s.regs.bound = true ∧ 2 ^ 32 - 1 < s.regs.pos.toNat + n.toNat
  | .varf w0 w1 w2 w3 _ =>
    s.regs.bound = true ∧ (¬ widthsAtMost32 w0 w1 w2 w3
      ∨ ∃ index used, prefixRow (bits s 0 s.regs.pos.toNat 3) index used
          ∧ 2 ^ 32 - 1 < s.regs.pos.toNat + used + varfWidth w0 w1 w2 w3 index)
  | .unbind | .pos | .align _ | .crcchk _ _ => False

/-- A word of the opcode with a bit set that its format marks "0" answers `E_ILLEGAL` and does nothing else
(30_encoding.md R56). -/
def reservedBitsFault (op : BitVec 8) (pattern mask : CmdWord) : Prop :=
  ∀ (s : State) (w : CmdWord) (rest : List HostEvent), s.host = .command w :: rest → fieldOp w = op →
    w &&& mask ≠ pattern → step s = .next (faulted { s with host := rest } .eIllegal)

end Sys2Proof.Machine
end

