-- ==== Sys2Proof/Certificates/Slice0/Obligations.lean ====
section
/-! DEFINITION. The statements for the provers. OBLIGATIONS.json lists them; each docstring names the rule or the
section of spec/ it formalises, and what in it is the model's own. -/

open Sys2Proof Sys2Proof.Machine

/-! ## State, reset, the stream -/

/-- 10_state.md R23, 70_reset_and_hazards.md R180: the registers after reset, at the start and after a reset event,
which has no response; a reset in the middle of a command leaves the same registers whatever becomes of its response. -/
def Obligations.ResetLeavesTheStatedRegisters : Prop :=
  State.reset.regs = ⟨false, 0#29, 0#32, 0xFFFF#16⟩
    ∧ ∀ (s : State) (w : CmdWord) (rest : List HostEvent),
      (s.host = .reset :: rest → ∃ t, step s = .next t ∧ t.regs = ⟨false, 0#29, 0#32, 0xFFFF#16⟩
        ∧ t.responses = s.responses ∧ t.mem = s.mem ∧ t.host = rest)
      ∧ (s.host = .resetDuring w :: rest → ∃ t, step s = .next t ∧ t.regs = ⟨false, 0#29, 0#32, 0xFFFF#16⟩
        ∧ t.mem = s.mem ∧ t.host = rest)

/-- 20_memory.md R31: the bit at a position, while the host keeps the slice as it was bound (R38). -/
def Obligations.BitTakesMostSignificantFirst : Prop :=
  ∀ (s : State) (look p : Nat), sliceKept s →
    bit s look p = if p ≥ 8 * s.regs.len.toNat then 0
      else ((memGet s.mem (p / 8)).toNat >>> (7 - p % 8)) &&& 1

/-- 20_memory.md R32: `bits(p, n)` is the sum of its bits, the first one most significant. -/
def Obligations.BitsIsTheBigEndianSum : Prop :=
  ∀ (s : State) (look p n : Nat),
    bits s look p n = ∑ i ∈ Finset.range n, bit s look (p + i) * 2 ^ (n - 1 - i)

/-- What 20_memory.md section 1 derives from the definition of `bits`: the splitting law, and for a byte-aligned run the
big-endian integer of its bytes, each byte past the end counting as 0. -/
def Obligations.BitsSplitAndReadWholeBytes : Prop :=
  (∀ (s : State) (look p n m : Nat),
    bits s look p (n + m) = bits s look p n * 2 ^ m + bits s look (p + n) m)
  ∧ ∀ (s : State) (look a k : Nat), sliceKept s →
    bits s look (8 * a) (8 * k)
      = ∑ j ∈ Finset.range k,
          (if a + j < s.regs.len.toNat then (memGet s.mem (a + j)).toNat else 0) * 256 ^ (k - 1 - j)

/-! ## Encoding -/

/-- Decode after encode, for every command with every operand its fields admit, on words and on bytes followed by
anything (30_encoding.md sections 2, 3 and 6). -/
def Obligations.DecodeInvertsEncode : Prop :=
  ∀ (i : Instr) (rest : List Byte),
    decode (encode i) = .ok i ∧ decodeBytes (encodeBytes i ++ rest) = .ok (i, rest)

/-- Encode after decode: a word decodes to at most the command that encodes to it, so no bit of a word is ignored
(30_encoding.md sections 2 and 5). -/
def Obligations.EncodeInvertsDecode : Prop :=
  ∀ (w : CmdWord) (i : Instr), decode w = .ok i → encode i = w

/-- 30_encoding.md R53: a word is the command of a row exactly when `cmd & mask = match`. -/
def Obligations.DecodeFollowsTheOpcodeMap : Prop :=
  ∀ w : CmdWord,
    ((∃ len, decode w = .ok (.bind len)) ↔ w &&& 0xFF00000000FFFFFF#64 = 0x0100000000000000#64)
    ∧ (decode w = .ok .unbind ↔ w &&& 0xFFFFFFFFFFFFFFFF#64 = 0x0200000000000000#64)
    ∧ ((∃ n, decode w = .ok (.read n)) ↔ w &&& 0xFFFFFFFFFFFFFF80#64 = 0x1000000000000000#64)
    ∧ ((∃ n, decode w = .ok (.peek n)) ↔ w &&& 0xFFFFFFFFFFFFFF80#64 = 0x1100000000000000#64)
    ∧ ((∃ n, decode w = .ok (.skip n)) ↔ w &&& 0xFF00000000FFFFFF#64 = 0x1200000000000000#64)
    ∧ (decode w = .ok .pos ↔ w &&& 0xFFFFFFFFFFFFFFFF#64 = 0x1300000000000000#64)
    ∧ ((∃ t, decode w = .ok (.align t)) ↔ w &&& 0xFF00000000FFFFFF#64 = 0x1400000000000000#64)
    ∧ ((∃ w0 w1 w2 w3 add, decode w = .ok (.varf w0 w1 w2 w3 add))
        ↔ w &&& 0xFFFE000000FFFFFF#64 = 0x2000000000000000#64)
    ∧ ((∃ start nbytes, decode w = .ok (.crcchk start nbytes))
        ↔ w &&& 0xFF00000000000000#64 = 0x3000000000000000#64)
    ∧ ((∃ e, decode w = .error e) ↔ ∀ r ∈ opRows, w &&& r.mask ≠ r.pattern)

/-- 30_encoding.md R52: where the operands of a decoded command stand in its word, by the formats L, N, A, V, C, and
that every bit a format marks "0" is zero. -/
def Obligations.OperandsAreTheFormatFields : Prop :=
  ∀ (w : CmdWord) (i : Instr), decode w = .ok i →
    match i with
    | .bind len => len.toNat = w.toNat / 2 ^ 24 % 2 ^ 32 ∧ w.toNat % 2 ^ 24 = 0
    | .unbind => w.toNat % 2 ^ 56 = 0
    | .read n => n.toNat = w.toNat % 2 ^ 7 ∧ w.toNat / 2 ^ 7 % 2 ^ 49 = 0
    | .peek n => n.toNat = w.toNat % 2 ^ 7 ∧ w.toNat / 2 ^ 7 % 2 ^ 49 = 0
    | .skip n => n.toNat = w.toNat / 2 ^ 24 % 2 ^ 32 ∧ w.toNat % 2 ^ 24 = 0
    | .pos => w.toNat % 2 ^ 56 = 0
    | .align t => t.toNat = w.toNat / 2 ^ 24 % 2 ^ 32 ∧ w.toNat % 2 ^ 24 = 0
    | .varf w0 w1 w2 w3 add =>
      w0.toNat = w.toNat / 2 ^ 24 % 2 ^ 6 ∧ w1.toNat = w.toNat / 2 ^ 30 % 2 ^ 6
        ∧ w2.toNat = w.toNat / 2 ^ 36 % 2 ^ 6 ∧ w3.toNat = w.toNat / 2 ^ 42 % 2 ^ 6
        ∧ (add = true ↔ w.toNat / 2 ^ 48 % 2 = 1) ∧ w.toNat / 2 ^ 49 % 2 ^ 7 = 0 ∧ w.toNat % 2 ^ 24 = 0
    | .crcchk start nbytes =>
      start.toNat = w.toNat / 2 ^ 24 % 2 ^ 32 ∧ nbytes.toNat = w.toNat % 2 ^ 24

/-- 30_encoding.md R57: every `op` but the nine assigned ones answers `E_ILLEGAL`, whatever `a` and `b` hold, and
changes no register; the all-zero word is one of them. -/
def Obligations.UnassignedOpcodesAnswerIllegal : Prop :=
  ∀ (s : State) (w : CmdWord) (rest : List HostEvent) (op : Nat), s.host = .command w :: rest →
    op = w.toNat / 2 ^ 56 →
    (op = 0x00 ∨ (0x03 ≤ op ∧ op ≤ 0x0F) ∨ (0x15 ≤ op ∧ op ≤ 0x1F) ∨ (0x21 ≤ op ∧ op ≤ 0x2F)
      ∨ (0x31 ≤ op ∧ op ≤ 0xFF)) →
    step s = .next (faulted { s with host := rest } .eIllegal)

/-- 30_encoding.md R56: an assigned opcode whose word fails its row's test answers `E_ILLEGAL` and nothing else. -/
def Obligations.ReservedBitsAnswerIllegal : Prop :=
  reservedBitsFault 0x01#8 0x0100000000000000#64 0xFF00000000FFFFFF#64
    ∧ reservedBitsFault 0x02#8 0x0200000000000000#64 0xFFFFFFFFFFFFFFFF#64
    ∧ reservedBitsFault 0x10#8 0x1000000000000000#64 0xFFFFFFFFFFFFFF80#64
    ∧ reservedBitsFault 0x11#8 0x1100000000000000#64 0xFFFFFFFFFFFFFF80#64
    ∧ reservedBitsFault 0x12#8 0x1200000000000000#64 0xFF00000000FFFFFF#64
    ∧ reservedBitsFault 0x13#8 0x1300000000000000#64 0xFFFFFFFFFFFFFFFF#64
    ∧ reservedBitsFault 0x14#8 0x1400000000000000#64 0xFF00000000FFFFFF#64
    ∧ reservedBitsFault 0x20#8 0x2000000000000000#64 0xFFFE000000FFFFFF#64
    ∧ ∀ w : CmdWord, fieldOp w = 0x30#8 → w &&& 0xFF00000000000000#64 = 0x3000000000000000#64

/-- Every word 30_encoding.md section 8 writes out: the thirteen of its table, each with the command it spells; the seven
illegal words; and the three that decode although their execution faults on a bound instance. -/
def Obligations.WrittenOutWordsDecode : Prop :=
  decodeTableWord 64 0x0100000008000000 = some (.bind 8#32)
    ∧ decodeTableWord 64 0x0200000000000000 = some .unbind
    ∧ decodeTableWord 64 0x1000000000000001 = some (.read 1#7)
    ∧ decodeTableWord 64 0x1000000000000020 = some (.read 32#7)
    ∧ decodeTableWord 64 0x1000000000000040 = some (.read 64#7)
    ∧ decodeTableWord 64 0x1100000000000003 = some (.peek 3#7)
    ∧ decodeTableWord 64 0x1200000024000000 = some (.skip 36#32)
    ∧ decodeTableWord 64 0x1300000000000000 = some .pos
    ∧ decodeTableWord 64 0x1400000028000000 = some (.align 40#32)
    ∧ decodeTableWord 64 0x200130A205000000 = some (.varf 5#6 8#6 10#6 12#6 true)
    ∧ decodeTableWord 64 0x2000810204000000 = some (.varf 4#6 8#6 16#6 32#6 false)
    ∧ decodeTableWord 64 0x3000000000000005 = some (.crcchk 0#32 5#24)
    ∧ decodeTableWord 64 0x3000000028000003 = some (.crcchk 40#32 3#24)
    ∧ decodeTableWord 64 0x0000000000000000 = none
    ∧ decodeTableWord 64 0x1000000100000020 = none
    ∧ decodeTableWord 64 0x1000000000000080 = none
    ∧ decodeTableWord 64 0x1300000000000001 = none
    ∧ decodeTableWord 64 0x2002000000000000 = none
    ∧ decodeTableWord 64 0x0100000008000001 = none
    ∧ decodeTableWord 64 0xFF00000000000000 = none
    ∧ decodeTableWord 64 0x1000000000000000 = some (.read 0#7)
    ∧ decodeTableWord 64 0x1000000000000041 = some (.read 65#7)
    ∧ decodeTableWord 64 0x2000000021000000 = some (.varf 33#6 0#6 0#6 0#6 false)

/-! ## The step -/

/-- A step runs the decoded command: the word the host presents next is decoded and executed on the state without it
(30_encoding.md section 1). That the host's words stand in a list of the state, and `withFetchWord`, are the model's
choice (log entries 1 and 2). -/
def Obligations.StepRunsTheDecodedCommand : Prop :=
  (∀ (s : State) (w : CmdWord) (rest : List HostEvent) (i : Instr), s.host = .command w :: rest →
    decode w = .ok i → step s = exec i { s with host := rest })
  ∧ ∀ (s : State) (w : Nat) (i : Instr), decodeTableWord 64 w = some i → step (s.withFetchWord 64 w) = exec i s

/-- The steps that run no command are the model's choice (log entries 1 and 4): with nothing on the host's list a step
changes nothing, and a store of the host's puts its byte in place at its address and nowhere else. -/
def Obligations.HostStoresChangeOneByte : Prop :=
  ∀ s : State, (s.host = [] → step s = .next s)
    ∧ ∀ (addr : BitVec 29) (b : Byte) (rest : List HostEvent), Memory.wf s.mem →
      s.host = .store addr b :: rest →
      ∃ t, step s = .next t ∧ t.regs = s.regs ∧ t.responses = s.responses ∧ t.host = rest
        ∧ memGet t.mem addr.toNat = b ∧ ∀ a, a ≠ addr.toNat → memGet t.mem a = memGet s.mem a

/-- A run never stops, however long and from whatever state (70_reset_and_hazards.md section 2: the block has no halt;
60_exceptions.md section 1: a fault leaves it ready). -/
def Obligations.RunsNeverStop : Prop :=
  ∀ (k : Nat) (s : State), ∃ t, Host.Core.run Sys2Proof.core k s = .next t

/-- Every command word gets exactly one response, whose value is 0 if its status is a fault, and no other act of the
host's but a reset in the middle of a command gets any (30_encoding.md section 6, 70_reset_and_hazards.md section 1). -/
def Obligations.EveryCommandGetsOneResponse : Prop :=
  ∀ (s t : State) (e : HostEvent) (rest : List HostEvent), s.host = e :: rest → step s = .next t →
    match e with
    | .command _ => ∃ st v, t.responses = s.responses ++ [⟨st, v⟩] ∧ (st ≠ .ok → v = 0#64)
    | .reset => t.responses = s.responses
    | .resetDuring _ => t.responses = s.responses ∨ ∃ r, t.responses = s.responses ++ [r]
    | .store _ _ => t.responses = s.responses

/-! ## Faults -/

/-- 60_exceptions.md R162: `E_ILLEGAL` exactly when the word is on no row of the opcode map (its `op` is not assigned, or
it is and a bit its format marks "0" is set), whatever the registers hold. -/
def Obligations.IllegalExactlyWhenUndecodable : Prop :=
  ∀ (s : State) (w : CmdWord) (rest : List HostEvent), s.host = .command w :: rest →
    ((∀ r ∈ opRows, w &&& r.mask ≠ r.pattern) ↔ step s = .next (faulted { s with host := rest } .eIllegal))

/-- 60_exceptions.md R163: `E_NULL` of the seven commands exactly while unbound; BIND and UNBIND never; a bound slice
of length 0 is not missing and reads zeros. -/
def Obligations.NullExactlyWhileUnbound : Prop :=
  (∀ (i : Instr) (s : State), exec i s = .next (faulted s .eNull) ↔ needsSlice i = true ∧ s.regs.bound = false)
  ∧ (∀ (n : BitVec 7) (t : BitVec 32) (w0 w1 w2 w3 : BitVec 6) (add : Bool) (nbytes : BitVec 24),
      needsSlice (.read n) = true ∧ needsSlice (.peek n) = true ∧ needsSlice (.skip t) = true
        ∧ needsSlice .pos = true ∧ needsSlice (.align t) = true ∧ needsSlice (.varf w0 w1 w2 w3 add) = true
        ∧ needsSlice (.crcchk t nbytes) = true ∧ needsSlice (.bind t) = false ∧ needsSlice .unbind = false)
  ∧ ∀ (s : State) (look p n : Nat), s.regs.len = 0#29 → bits s look p n = 0

/-- 60_exceptions.md R164: `E_RANGE` exactly in its cases (a) to (d). -/
def Obligations.RangeExactlyInItsCases : Prop :=
  ∀ (i : Instr) (s : State), exec i s = .next (faulted s .eRange) ↔ rangeFaultCase i s

/-- 60_exceptions.md R165: `E_BACKWARD` exactly of an ALIGN to a target before the cursor, which stays. -/
def Obligations.BackwardExactlyOfAnEarlierTarget : Prop :=
  ∀ (i : Instr) (s : State), exec i s = .next (faulted s .eBackward)
    ↔ ∃ t, i = .align t ∧ s.regs.bound = true ∧ t.toNat < s.regs.pos.toNat

/-- 60_exceptions.md R167: the status of a word is the first fault that applies in the fixed order. -/
def Obligations.StatusIsTheFirstFaultThatApplies : Prop :=
  ∀ (s : State) (w : CmdWord) (rest : List HostEvent), s.host = .command w :: rest →
    ∃ t, step s = .next t ∧ answers s t (firstFault w s)

/-- 60_exceptions.md R161: a fault changes no register, reads as `(code, 0)`, and leaves no trace: the next command runs
as if the faulting one had not been issued (while the slice is kept: in breach of 20_memory.md R38 every read is
free). -/
def Obligations.FaultsLeaveNoTrace : Prop :=
  (∀ (s t : State) (w : CmdWord) (rest : List HostEvent) (f : Status) (v : Value), s.host = .command w :: rest →
    step s = .next t → t.responses = s.responses ++ [⟨f, v⟩] → f ≠ .ok →
    t = faulted { s with host := rest } f)
  ∧ ∀ (s : State) (f : Status) (i : Instr), sliceKept s →
    ∃ t u r, exec i s = .next t ∧ exec i (faulted s f) = .next u ∧ u.regs = t.regs ∧ u.mem = t.mem
      ∧ t.responses = s.responses ++ [r] ∧ u.responses = s.responses ++ [⟨f, 0#64⟩, r]

/-- 60_exceptions.md R166: overrun and a CRC mismatch are no faults. -/
def Obligations.OverrunAndMismatchAreNoFaults : Prop :=
  (∀ (n : BitVec 7) (s : State), s.regs.bound = true → 1 ≤ n.toNat → n.toNat ≤ 64 →
    s.regs.pos.toNat + n.toNat ≤ 2 ^ 32 - 1 → 8 * s.regs.len.toNat ≤ s.regs.pos.toNat →
    exec (.read n) s = .next (answered s
      { s.regs with pos := BitVec.ofNat 32 (s.regs.pos.toNat + n.toNat) } 0#64))
  ∧ (∀ (n : BitVec 32) (s : State), s.regs.bound = true → s.regs.pos.toNat + n.toNat ≤ 2 ^ 32 - 1 →
    8 * s.regs.len.toNat < s.regs.pos.toNat + n.toNat →
    exec (.skip n) s = .next (answered s
      { s.regs with pos := BitVec.ofNat 32 (s.regs.pos.toNat + n.toNat) } 0#64))
  ∧ (∀ (t : BitVec 32) (s : State), s.regs.bound = true → s.regs.pos.toNat ≤ t.toNat →
    8 * s.regs.len.toNat < t.toNat → exec (.align t) s = .next (answered s { s.regs with pos := t } 0#64))
  ∧ ∀ (start : BitVec 32) (nbytes : BitVec 24) (s : State), s.regs.bound = true →
    crcWindow s start.toNat nbytes.toNat ≠ 0#16 →
    ∃ v, exec (.crcchk start nbytes) s
        = .next (answered s { s.regs with crc := crcWindow s start.toNat nbytes.toNat } v)
      ∧ v.getLsbD 16 = false

/-! ## What each command does -/

/-- 40_bitreader.md R71: BIND. -/
def Obligations.BindGivesTheSliceAtItsFirstBit : Prop :=
  (∀ (len : BitVec 32) (s : State), len.toNat ≤ 2 ^ 29 - 1 →
    ∃ t, exec (.bind len) s = .next t ∧ t.regs.bound = true ∧ t.regs.len.toNat = len.toNat
      ∧ t.regs.pos = 0#32 ∧ t.regs.crc = s.regs.crc ∧ t.responses = s.responses ++ [⟨.ok, 0#64⟩]
      ∧ t.mem = s.mem ∧ t.host = s.host ∧ (len = 0#32 → ∀ look p, bit t look p = 0))
  ∧ (∀ (len : BitVec 32) (s : State), 2 ^ 29 - 1 < len.toNat → exec (.bind len) s = .next (faulted s .eRange))
  ∧ reservedBitsFault 0x01#8 0x0100000000000000#64 0xFF00000000FFFFFF#64

/-- 40_bitreader.md R72: UNBIND; on an unbound instance (whose registers the invariant of log entry 9 gives) it changes
nothing. -/
def Obligations.UnbindReleasesTheSlice : Prop :=
  (∀ s : State, ∃ t, exec .unbind s = .next t ∧ t.regs = ⟨false, 0#29, 0#32, s.regs.crc⟩
      ∧ t.responses = s.responses ++ [⟨.ok, 0#64⟩] ∧ t.mem = s.mem ∧ t.host = s.host)
  ∧ (∀ s : State, s.Inv → s.regs.bound = false → exec .unbind s = .next (answered s s.regs 0#64))
  ∧ reservedBitsFault 0x02#8 0x0200000000000000#64 0xFFFFFFFFFFFFFFFF#64

/-- 40_bitreader.md R73: READ. -/
def Obligations.ReadAnswersTheNextBits : Prop :=
  (∀ (n : BitVec 7) (s : State), s.regs.bound = true → 1 ≤ n.toNat → n.toNat ≤ 64 →
    s.regs.pos.toNat + n.toNat ≤ 2 ^ 32 - 1 →
    ∃ v p, exec (.read n) s = .next (answered s { s.regs with pos := p } v)
      ∧ p.toNat = s.regs.pos.toNat + n.toNat
      ∧ v.toNat = ∑ i ∈ Finset.range n.toNat, bit s 0 (s.regs.pos.toNat + i) * 2 ^ (n.toNat - 1 - i))
  ∧ (∀ (n : BitVec 7) (s : State), s.regs.bound = false → exec (.read n) s = .next (faulted s .eNull))
  ∧ (∀ (n : BitVec 7) (s : State), s.regs.bound = true →
    (n.toNat < 1 ∨ 64 < n.toNat ∨ 2 ^ 32 - 1 < s.regs.pos.toNat + n.toNat) →
    exec (.read n) s = .next (faulted s .eRange))
  ∧ reservedBitsFault 0x10#8 0x1000000000000000#64 0xFFFFFFFFFFFFFF80#64

/-- 40_bitreader.md R75: PEEK writes no register, at any position. -/
def Obligations.PeekAnswersWithoutMoving : Prop :=
  (∀ (n : BitVec 7) (s : State), s.regs.bound = true → 1 ≤ n.toNat → n.toNat ≤ 64 →
    ∃ v, exec (.peek n) s = .next (answered s s.regs v)
      ∧ v.toNat = ∑ i ∈ Finset.range n.toNat, bit s 0 (s.regs.pos.toNat + i) * 2 ^ (n.toNat - 1 - i))
  ∧ (∀ (n : BitVec 7) (s : State), s.regs.bound = false → exec (.peek n) s = .next (faulted s .eNull))
  ∧ (∀ (n : BitVec 7) (s : State), s.regs.bound = true → (n.toNat < 1 ∨ 64 < n.toNat) →
    exec (.peek n) s = .next (faulted s .eRange))
  ∧ reservedBitsFault 0x11#8 0x1100000000000000#64 0xFFFFFFFFFFFFFF80#64

/-- 40_bitreader.md R76: SKIP. -/
def Obligations.SkipAdvancesByItsCount : Prop :=
  (∀ (n : BitVec 32) (s : State), s.regs.bound = true → s.regs.pos.toNat + n.toNat ≤ 2 ^ 32 - 1 →
    ∃ p, exec (.skip n) s = .next (answered s { s.regs with pos := p } 0#64)
      ∧ p.toNat = s.regs.pos.toNat + n.toNat)
  ∧ (∀ (n : BitVec 32) (s : State), s.regs.bound = false → exec (.skip n) s = .next (faulted s .eNull))
  ∧ (∀ (n : BitVec 32) (s : State), s.regs.bound = true → 2 ^ 32 - 1 < s.regs.pos.toNat + n.toNat →
    exec (.skip n) s = .next (faulted s .eRange))
  ∧ reservedBitsFault 0x12#8 0x1200000000000000#64 0xFF00000000FFFFFF#64

/-- 40_bitreader.md R77: POS, which is also the overrun test (10_state.md R16). -/
def Obligations.PosAnswersTheCursor : Prop :=
  (∀ s : State, s.regs.bound = true →
    ∃ v, exec .pos s = .next (answered s s.regs v) ∧ v.toNat = s.regs.pos.toNat
      ∧ (overrun s = true ↔ v.toNat > 8 * s.regs.len.toNat))
  ∧ (∀ s : State, s.regs.bound = false → exec .pos s = .next (faulted s .eNull))
  ∧ reservedBitsFault 0x13#8 0x1300000000000000#64 0xFFFFFFFFFFFFFFFF#64

/-- 40_bitreader.md R78: ALIGN and its faults. -/
def Obligations.AlignMovesForwardToItsTarget : Prop :=
  (∀ (t : BitVec 32) (s : State), s.regs.bound = true → s.regs.pos.toNat ≤ t.toNat →
    exec (.align t) s = .next (answered s { s.regs with pos := t } 0#64))
  ∧ (∀ (t : BitVec 32) (s : State), s.regs.bound = false → exec (.align t) s = .next (faulted s .eNull))
  ∧ (∀ (t : BitVec 32) (s : State), s.regs.bound = true → t.toNat < s.regs.pos.toNat →
    exec (.align t) s = .next (faulted s .eBackward))
  ∧ reservedBitsFault 0x14#8 0x1400000000000000#64 0xFF00000000FFFFFF#64

/-- 41_varfield.md R101 with the prefix table of R102: VARF. -/
def Obligations.VarfDecodesThePrefixCode : Prop :=
  (∀ (w0 w1 w2 w3 : BitVec 6) (add : Bool) (s : State) (index used : Nat), s.regs.bound = true →
    widthsAtMost32 w0 w1 w2 w3 → prefixRow (bits s 0 s.regs.pos.toNat 3) index used →
    s.regs.pos.toNat + used + varfWidth w0 w1 w2 w3 index ≤ 2 ^ 32 - 1 →
    ∃ v p, exec (.varf w0 w1 w2 w3 add) s = .next (answered s { s.regs with pos := p } v)
      ∧ p.toNat = s.regs.pos.toNat + used + varfWidth w0 w1 w2 w3 index
      ∧ v.toNat = (if varfWidth w0 w1 w2 w3 index > 0
            then bits s 1 (s.regs.pos.toNat + used) (varfWidth w0 w1 w2 w3 index) else 0)
          + (if add = true then ∑ j ∈ Finset.range index, 2 ^ varfWidth w0 w1 w2 w3 j else 0)
      ∧ v.toNat < 2 ^ 34)
  ∧ (∀ (w0 w1 w2 w3 : BitVec 6) (add : Bool) (s : State), s.regs.bound = false →
    exec (.varf w0 w1 w2 w3 add) s = .next (faulted s .eNull))
  ∧ (∀ (w0 w1 w2 w3 : BitVec 6) (add : Bool) (s : State), s.regs.bound = true →
    ¬ widthsAtMost32 w0 w1 w2 w3 → exec (.varf w0 w1 w2 w3 add) s = .next (faulted s .eRange))
  ∧ (∀ (w0 w1 w2 w3 : BitVec 6) (add : Bool) (s : State) (index used : Nat), s.regs.bound = true →
    prefixRow (bits s 0 s.regs.pos.toNat 3) index used →
    2 ^ 32 - 1 < s.regs.pos.toNat + used + varfWidth w0 w1 w2 w3 index →
    exec (.varf w0 w1 w2 w3 add) s = .next (faulted s .eRange))
  ∧ reservedBitsFault 0x20#8 0x2000000000000000#64 0xFFFE000000FFFFFF#64

/-- 42_crc16.md R120: CRCCHK. -/
def Obligations.CrcchkAnswersTheResidual : Prop :=
  (∀ (start : BitVec 32) (nbytes : BitVec 24) (s : State), s.regs.bound = true →
    ∃ v, exec (.crcchk start nbytes) s
        = .next (answered s { s.regs with crc := crcWindow s start.toNat nbytes.toNat } v)
      ∧ v.toNat = (crcWindow s start.toNat nbytes.toNat).toNat
          + (if crcWindow s start.toNat nbytes.toNat = 0#16 then 2 ^ 16 else 0))
  ∧ (∀ (start : BitVec 32) (nbytes : BitVec 24) (s : State), s.regs.bound = false →
    exec (.crcchk start nbytes) s = .next (faulted s .eNull))
  ∧ ∀ (w : CmdWord), fieldOp w = 0x30#8 → ∃ start nbytes, decode w = .ok (.crcchk start nbytes)

/-! ## Frames and isolation -/

/-- What every command leaves unchanged (10_state.md section 3, the access map): the host's side and every byte of
memory; `bound` and `len` but of BIND and UNBIND; `crc` but of CRCCHK; `pos` of PEEK, POS and CRCCHK. -/
def Obligations.CommandsKeepWhatTheyDoNotWrite : Prop :=
  ∀ (i : Instr) (s t : State), exec i s = .next t →
    (∀ a, memGet t.mem a = memGet s.mem a) ∧ t.host = s.host
    ∧ (∃ r, t.responses = s.responses ++ [r])
    ∧ (rebinds i = false →
        t.regs.bound = s.regs.bound ∧ t.regs.len = s.regs.len ∧ t.superseded = s.superseded)
    ∧ ((∀ start nbytes, i ≠ .crcchk start nbytes) → t.regs.crc = s.regs.crc)
    ∧ (((∃ n, i = .peek n) ∨ i = .pos ∨ ∃ start nbytes, i = .crcchk start nbytes) → t.regs.pos = s.regs.pos)

/-- 20_memory.md R36: no command word, decoded or not, and no reset writes a byte of memory. -/
def Obligations.BlockNeverWritesMemory : Prop :=
  ∀ (s t : State) (e : HostEvent) (rest : List HostEvent), s.host = e :: rest →
    (∀ a b, e ≠ .store a b) → step s = .next t → ∀ a, memGet t.mem a = memGet s.mem a

/-- Every command sees memory only inside the slice (20_memory.md section 4, no read at or past `len` and none while
unbound): two states that agree but for bytes outside the bound slice give the same registers and responses (for the
same free choices, if the slice was changed under its binding: log entry 5). -/
def Obligations.CommandsSeeOnlyTheBoundSlice : Prop :=
  ∀ (i : Instr) (s : State) (m : Memory),
    (s.regs.bound = true → ∀ a, a < s.regs.len.toNat → memGet m a = memGet s.mem a) →
    ∃ t u, exec i s = .next t ∧ exec i { s with mem := m } = .next u
      ∧ u.regs = t.regs ∧ u.responses = t.responses ∧ u.superseded = t.superseded ∧ u.host = t.host

/-- BIND, UNBIND, SKIP, POS and ALIGN read no byte of the slice (10_state.md section 3, the access map): their answers
and registers are the same over any bytes, changed or not. -/
def Obligations.StreamlessCommandsIgnoreMemory : Prop :=
  ∀ (i : Instr) (s : State) (m : Memory) (o : List Host.Cell), readsStream i = false →
    ∃ t u, exec i s = .next t ∧ exec i { s with mem := m, superseded := o } = .next u
      ∧ u.regs = t.regs ∧ u.responses = t.responses

/-- READ and PEEK read only the bytes that hold their bits (10_state.md section 3; 20_memory.md section 3, which derives
the byte count): two states that agree but for other bytes give the same answer (for the same free choices, if the slice
was changed under its binding: log entry 5). -/
def Obligations.ReadsTouchOnlyTheirBytes : Prop :=
  ∀ (n : BitVec 7) (s : State) (m : Memory), 1 ≤ n.toNat →
    (∀ a, s.regs.pos.toNat / 8 ≤ a → a ≤ (s.regs.pos.toNat + n.toNat - 1) / 8 → memGet m a = memGet s.mem a) →
    (∃ t u, exec (.read n) s = .next t ∧ exec (.read n) { s with mem := m } = .next u
      ∧ u.regs = t.regs ∧ u.responses = t.responses)
    ∧ ∃ t u, exec (.peek n) s = .next t ∧ exec (.peek n) { s with mem := m } = .next u
      ∧ u.regs = t.regs ∧ u.responses = t.responses

/-- The value of `crc` between commands cannot be observed (10_state.md section 1 derives it): whatever it is, every
command gives the same response and the same other registers (for the same free choices, if the slice was changed under
its binding: log entry 5). -/
def Obligations.CrcBetweenCommandsIsUnobservable : Prop :=
  ∀ (i : Instr) (s : State) (c : BitVec 16),
    ∃ t u, exec i s = .next t ∧ exec i { s with regs := { s.regs with crc := c } } = .next u
      ∧ u.responses = t.responses ∧ u.regs.bound = t.regs.bound ∧ u.regs.len = t.regs.len
      ∧ u.regs.pos = t.regs.pos

/-- The window of a CRCCHK is walked with a private position (42_crc16.md section 2): wherever the cursor stands the
response and `crc` are the same, and the cursor stays (for the same free choices, if the slice was changed under its
binding: log entry 5). -/
def Obligations.CrcchkIgnoresTheCursor : Prop :=
  ∀ (start : BitVec 32) (nbytes : BitVec 24) (s : State) (p : BitVec 32),
    ∃ t, exec (.crcchk start nbytes) s = .next t ∧ t.regs.pos = s.regs.pos
      ∧ exec (.crcchk start nbytes) { s with regs := { s.regs with pos := p } }
          = .next { t with regs := { t.regs with pos := p } }

/-- A change of the slice under its binding (20_memory.md section 4; the form of the free value is log entry 5), however
often the host breaks its duty: in every state each bit inside the slice is a bit of the byte in place or of one the
address has held; a store adds to those bytes at its own address only, and there only the byte it replaces; every other
bit is as before it; and UNBIND and reset end the doubt. That BIND ends it too is the model's deduction from
40_bitreader.md section 2 (DEDUCED, log entry 5). -/
def Obligations.ChangedSliceReadsOldOrNew : Prop :=
  (∀ (s : State) (look p : Nat), p < 8 * s.regs.len.toNat →
    ∃ c, (c = memGet s.mem (p / 8) ∨ c ∈ olderBytes s (p / 8)) ∧ bit s look p = (c.toNat >>> (7 - p % 8)) % 2)
  ∧ (∀ (s : State) (addr : BitVec 29) (b : Byte) (rest : List HostEvent), Memory.wf s.mem →
    s.host = .store addr b :: rest →
    ∃ t, step s = .next t ∧ t.regs = s.regs
      ∧ (∀ look p, p / 8 ≠ addr.toNat → bit t look p = bit s look p)
      ∧ (∀ a, a ≠ addr.toNat → olderBytes t a = olderBytes s a)
      ∧ (∀ c, c ∈ olderBytes t addr.toNat → c = memGet s.mem addr.toNat ∨ c ∈ olderBytes s addr.toNat)
      ∧ ∀ look p, p / 8 = addr.toNat → p < 8 * s.regs.len.toNat →
          ∃ c, (c = b ∨ c = memGet s.mem addr.toNat ∨ c ∈ olderBytes s addr.toNat)
            ∧ bit t look p = (c.toNat >>> (7 - p % 8)) % 2)
  ∧ (∀ (s t : State) (len : BitVec 32), len.toNat ≤ 2 ^ 29 - 1 → exec (.bind len) s = .next t → sliceKept t)
  ∧ (∀ s t : State, exec .unbind s = .next t → sliceKept t)
  ∧ ∀ (s t : State) (rest : List HostEvent), s.host = .reset :: rest → step s = .next t → sliceKept t

/-- Instances of a platform share no state (60_exceptions.md section 4; the platform as a list is log entry 10): a step
of one runs it as the machine alone and leaves every other as it was. -/
def Obligations.InstancesAreIndependent : Prop :=
  ∀ (p : Platform) (k : Nat) (s : State), p.instances[k]? = some s →
    ∃ q t, platformStep p k = .next q ∧ step s = .next t ∧ q.instances[k]? = some t
      ∧ q.instances.length = p.instances.length ∧ ∀ j, j ≠ k → q.instances[j]? = p.instances[j]?

/-! ## Laws of the cursor -/

/-- The splitting law (40_bitreader.md section 5 derives it), while the slice is kept. -/
def Obligations.ReadsCompose : Prop :=
  ∀ (n m : BitVec 7) (s : State), sliceKept s → s.regs.bound = true → 1 ≤ n.toNat → 1 ≤ m.toNat →
    n.toNat + m.toNat ≤ 64 → s.regs.pos.toNat + n.toNat + m.toNat ≤ 2 ^ 32 - 1 →
    ∃ (s1 s2 t : State) (v1 v2 v : Value), exec (.read n) s = .next s1 ∧ exec (.read m) s1 = .next s2
      ∧ exec (.read (n + m)) s = .next t ∧ t.regs = s2.regs
      ∧ s2.responses = s.responses ++ [⟨.ok, v1⟩, ⟨.ok, v2⟩] ∧ t.responses = s.responses ++ [⟨.ok, v⟩]
      ∧ v.toNat = v1.toNat * 2 ^ m.toNat + v2.toNat

/-- The PEEK/READ law (40_bitreader.md section 5 derives it), while the slice is kept. -/
def Obligations.PeekThenReadAgree : Prop :=
  ∀ (n : BitVec 7) (s : State), sliceKept s → s.regs.bound = true → 1 ≤ n.toNat → n.toNat ≤ 64 →
    s.regs.pos.toNat + n.toNat ≤ 2 ^ 32 - 1 →
    ∃ (s1 s2 s3 t : State) (v : Value), exec (.peek n) s = .next s1 ∧ exec (.read n) s1 = .next s2
      ∧ exec (.skip (n.setWidth 32)) s1 = .next s3 ∧ exec (.read n) s = .next t
      ∧ s2.responses = s.responses ++ [⟨.ok, v⟩, ⟨.ok, v⟩] ∧ t.responses = s.responses ++ [⟨.ok, v⟩]
      ∧ s3.regs = t.regs ∧ s2.regs = t.regs

/-- A forward ALIGN, and an ALIGN to the cursor itself, has exactly the effect of `SKIP (t - pos)` (40_bitreader.md
section 4 derives it). -/
def Obligations.ForwardAlignIsASkip : Prop :=
  ∀ (t : BitVec 32) (s : State), s.regs.bound = true → s.regs.pos.toNat ≤ t.toNat →
    ∃ u, exec (.align t) s = .next u ∧ exec (.skip (t - s.regs.pos)) s = .next u ∧ u.regs.pos = t

/-- While a slice stays bound the cursor never goes back (40_bitreader.md section 5 derives it): no command but BIND and
UNBIND, no illegal word and no store of the host's lowers `pos`, and none ends the binding or changes `len`. -/
def Obligations.CursorNeverGoesBack : Prop :=
  ∀ (s t : State), step s = .next t →
    (∀ w rest, s.host = .command w :: rest → ∀ i, decode w = .ok i → rebinds i = false) →
    (∀ rest, s.host ≠ .reset :: rest) → (∀ w rest, s.host ≠ .resetDuring w :: rest) →
    s.regs.pos.toNat ≤ t.regs.pos.toNat ∧ t.regs.bound = s.regs.bound ∧ t.regs.len = s.regs.len

/-- The overrun test may be made once, at the end (70_reset_and_hazards.md section 3 derives it): over a run of command
words none of which is a BIND or an UNBIND, a cursor inside the slice at the end was inside it throughout. -/
def Obligations.EndTestCoversTheWholeRun : Prop :=
  ∀ (j k : Nat) (s t u : State),
    (∀ e ∈ s.host, ∃ w, e = .command w ∧ fieldOp w ≠ 0x01#8 ∧ fieldOp w ≠ 0x02#8) →
    Host.Core.run Sys2Proof.core j s = .next t → Host.Core.run Sys2Proof.core (j + k) s = .next u →
    u.regs.pos.toNat ≤ 8 * u.regs.len.toNat → t.regs.pos.toNat ≤ 8 * t.regs.len.toNat

/-! ## Laws of the VarField -/

/-- VARF without add is `PEEK 3`, `SKIP bits_used` and, for a width above 0, `READ W[index]` (41_varfield.md section 1
derives it), while the slice is kept. -/
def Obligations.VarfIsPeekSkipRead : Prop :=
  ∀ (w0 w1 w2 w3 : BitVec 6) (s : State) (index used : Nat), sliceKept s → s.regs.bound = true →
    widthsAtMost32 w0 w1 w2 w3 → prefixRow (bits s 0 s.regs.pos.toNat 3) index used →
    s.regs.pos.toNat + used + varfWidth w0 w1 w2 w3 index ≤ 2 ^ 32 - 1 →
    ∃ (s1 s2 t : State) (P v : Value), exec (.peek 3#7) s = .next s1
      ∧ s1.responses = s.responses ++ [⟨.ok, P⟩] ∧ prefixRow P.toNat index used
      ∧ exec (.skip (BitVec.ofNat 32 used)) s1 = .next s2
      ∧ exec (.varf w0 w1 w2 w3 false) s = .next t ∧ t.responses = s.responses ++ [⟨.ok, v⟩]
      ∧ (varfWidth w0 w1 w2 w3 index = 0 → t.regs = s2.regs ∧ v = 0#64)
      ∧ (varfWidth w0 w1 w2 w3 index > 0 →
          ∃ s3, exec (.read (BitVec.ofNat 7 (varfWidth w0 w1 w2 w3 index))) s2 = .next s3
            ∧ t.regs = s3.regs ∧ s3.responses = s2.responses ++ [⟨.ok, v⟩])

/-- The round trip (41_varfield.md section 2 derives it; the source's property): where the stream at the cursor holds the
code of a legal value, VARF with add answers the value and moves past the code. -/
def Obligations.VarfInvertsItsEncoder : Prop :=
  ∀ (w0 w1 w2 w3 : BitVec 6) (s : State) (v : Nat), sliceKept s → s.regs.bound = true →
    widthsAtMost32 w0 w1 w2 w3 → v < varfBase (varfWidth w0 w1 w2 w3) 4 →
    s.regs.pos.toNat + varfCodeLength (varfWidth w0 w1 w2 w3) v ≤ 2 ^ 32 - 1 →
    bits s 0 s.regs.pos.toNat (varfCodeLength (varfWidth w0 w1 w2 w3) v) = varfCode (varfWidth w0 w1 w2 w3) v →
    exec (.varf w0 w1 w2 w3 true) s = .next (answered s
      { s.regs with pos := BitVec.ofNat 32 (s.regs.pos.toNat + varfCodeLength (varfWidth w0 w1 w2 w3) v) }
      (BitVec.ofNat 64 v))

/-- The value ranges (41_varfield.md section 2 derives them): with add, index k answers a value of
base(k) .. base(k+1) - 1, and ranges of different indices share no value. -/
def Obligations.VarfRangesAreDisjoint : Prop :=
  (∀ (w0 w1 w2 w3 : BitVec 6) (s t : State) (v : Value) (index used : Nat), s.regs.bound = true →
    prefixRow (bits s 0 s.regs.pos.toNat 3) index used →
    exec (.varf w0 w1 w2 w3 true) s = .next t → t.responses = s.responses ++ [⟨.ok, v⟩] →
    varfBase (varfWidth w0 w1 w2 w3) index ≤ v.toNat
      ∧ v.toNat < varfBase (varfWidth w0 w1 w2 w3) (index + 1)
      ∧ t.regs.pos.toNat = s.regs.pos.toNat + used + varfWidth w0 w1 w2 w3 index)
  ∧ ∀ (W : Nat → Nat) (j k v : Nat), varfBase W j ≤ v → v < varfBase W (j + 1) → varfBase W k ≤ v →
    v < varfBase W (k + 1) → j = k

/-- VARF at or past the end of the slice (41_varfield.md section 2, corner case a): prefix 0, index 0, value 0. -/
def Obligations.VarfPastTheEndAnswersZero : Prop :=
  ∀ (w0 w1 w2 w3 : BitVec 6) (add : Bool) (s : State), s.regs.bound = true → widthsAtMost32 w0 w1 w2 w3 →
    8 * s.regs.len.toNat ≤ s.regs.pos.toNat → s.regs.pos.toNat + 1 + w0.toNat ≤ 2 ^ 32 - 1 →
    exec (.varf w0 w1 w2 w3 add) s = .next (answered s
      { s.regs with pos := BitVec.ofNat 32 (s.regs.pos.toNat + 1 + w0.toNat) } 0#64)

/-! ## Laws of the CRC -/

/-- The recovered table (42_crc16.md section 1 derives it): entry i is i times the polynomial, and the table is
linear. -/
def Obligations.CrcTableIsThePolynomialMultiples : Prop :=
  (∀ i : BitVec 4, (crcEntry i).toNat = i.toNat * 0x1021)
    ∧ ∀ i j : BitVec 4, crcEntry (i ^^^ j) = crcEntry i ^^^ crcEntry j

/-- 42_crc16.md R118: the update for one nibble, in integers. -/
def Obligations.CrcStepIsTheTableUpdate : Prop :=
  ∀ (c : BitVec 16) (nib : BitVec 4),
    (crcStep c nib).toNat = (c.toNat <<< 4) % 2 ^ 16 ^^^
      ([0x0000, 0x1021, 0x2042, 0x3063, 0x4084, 0x50A5, 0x60C6, 0x70E7, 0x8108, 0x9129, 0xA14A, 0xB16B, 0xC18C,
        0xD1AD, 0xE1CE, 0xF1EF] : List Nat).getD ((c.toNat >>> 12) ^^^ nib.toNat) 0

/-- 42_crc16.md R119: the residual of a window is the register carried from 0xFFFF over its nibbles in stream order. -/
def Obligations.CrcWindowIsTheNibbleFold : Prop :=
  ∀ (s : State) (start nbytes : Nat),
    crcWindow s start nbytes
      = (List.range (2 * nbytes)).foldl
          (fun c k => crcStep c (BitVec.ofNat 4 (bits s 0 (start + 4 * k) 4))) 0xFFFF#16

/-- The bit-serial form (42_crc16.md section 3, from general knowledge there): four one-bit updates are one table step,
so a window's residual is the bit-serial CRC of its bits. -/
def Obligations.CrcEqualsItsBitSerialForm : Prop :=
  (∀ (c : BitVec 16) (nib : BitVec 4), crcStep c nib
    = crcBitStep (crcBitStep (crcBitStep (crcBitStep c (nib.getLsbD 3)) (nib.getLsbD 2)) (nib.getLsbD 1))
        (nib.getLsbD 0))
  ∧ ∀ (s : State) (start nbytes : Nat),
    crcWindow s start nbytes
      = (List.range (8 * nbytes)).foldl (fun c k => crcBitStep c (decide (bit s 0 (start + k) = 1))) 0xFFFF#16

/-- The CRC is affine in the data (42_crc16.md section 3): the residual of M xor E is that of M xor that of E started
from 0. -/
def Obligations.CrcIsAffineInTheData : Prop :=
  ∀ (s e t : State) (start nbytes : Nat),
    (∀ p, start ≤ p → p < start + 8 * nbytes → bit t 0 p = (bit s 0 p + bit e 0 p) % 2) →
    crcWindow t start nbytes = crcWindow s start nbytes ^^^ crcNibbles e (2 * nbytes) start 0#16

/-- The append law (42_crc16.md section 3 derives it; the source's self-check variant): a window followed by its own
residual, most significant byte first, is good. -/
def Obligations.AppendedCrcMakesTheWindowGood : Prop :=
  ∀ (s : State) (start : BitVec 32) (n : Nat), s.regs.bound = true → n + 2 < 2 ^ 24 →
    bits s 0 (start.toNat + 8 * n) 16 = (crcWindow s start.toNat n).toNat →
    exec (.crcchk start (BitVec.ofNat 24 (n + 2))) s
      = .next (answered s { s.regs with crc := 0#16 } 0x10000#64)

/-- Error detection (42_crc16.md section 3 derives it; the source's property): a good window with exactly one bit
inverted is not good. -/
def Obligations.SingleBitErrorsAreDetected : Prop :=
  ∀ (s t : State) (start nbytes q : Nat), start ≤ q → q < start + 8 * nbytes →
    (∀ p, start ≤ p → p < start + 8 * nbytes →
      bit t 0 p = if p = q then 1 - bit s 0 p else bit s 0 p) →
    crcWindow s start nbytes = 0#16 → crcWindow t start nbytes ≠ 0#16

/-- Empty windows and trailing zeros (42_crc16.md section 3, corner cases a and c): an empty window leaves 0xFFFF, and a
good window followed by zero bits stays good. -/
def Obligations.TrailingZerosKeepAWindowGood : Prop :=
  ∀ (s : State) (start n m : Nat), crcWindow s start 0 = 0xFFFF#16
    ∧ (crcWindow s start n = 0#16 →
        (∀ p, start + 8 * n ≤ p → p < start + 8 * (n + m) → bit s 0 p = 0) → crcWindow s start (n + m) = 0#16)

/-- A window that reaches past the slice is zero-filled (42_crc16.md section 2): its residual is that over the slice
lengthened by zero bytes, while the slices are kept. -/
def Obligations.WindowsPastTheEndAreZeroFilled : Prop :=
  ∀ (s t : State) (start nbytes : Nat), sliceKept s → sliceKept t → s.regs.len.toNat ≤ t.regs.len.toNat →
    (∀ a, a < s.regs.len.toNat → memGet t.mem a = memGet s.mem a) →
    (∀ a, s.regs.len.toNat ≤ a → a < t.regs.len.toNat → memGet t.mem a = 0#8) →
    crcWindow t start nbytes = crcWindow s start nbytes

/-! ## Invariants -/

/-- Every step keeps the invariant: the canonical form of memory; `len` and `pos` 0 and no byte in doubt while unbound;
only bytes of the bound slice in doubt (10_state.md section 1; the form of memory and of doubt are log entries 3
and 5). -/
def Obligations.StepsKeepTheUnboundRegistersZero : Prop :=
  ∀ s t : State, s.Inv → step s = .next t → t.Inv

/-- The invariant holds after reset: if unbound there, `len` and `pos` are 0 (10_state.md section 4). That memory is in
canonical form and that no byte is in doubt at reset are the model's choices (log entries 3 and 5). -/
def Obligations.ResetStateMeetsTheInvariant : Prop := State.reset.Inv
end

