-- ==== Sys2Proof/Laws/State.lean ====
section
/-! SUPPORT. One lemma per field per update of State, each true by rfl, so that no later proof unfolds a record
update. -/

namespace Sys2Proof.Machine

@[simp] theorem setPos_regs (p : BitVec 32) (s : State) : (setPos p s).regs = { s.regs with pos := p } := rfl
@[simp] theorem setPos_mem (p : BitVec 32) (s : State) : (setPos p s).mem = s.mem := rfl
@[simp] theorem setPos_superseded (p : BitVec 32) (s : State) : (setPos p s).superseded = s.superseded := rfl
@[simp] theorem setPos_host (p : BitVec 32) (s : State) : (setPos p s).host = s.host := rfl
@[simp] theorem setPos_responses (p : BitVec 32) (s : State) : (setPos p s).responses = s.responses := rfl
@[simp] theorem setPos_tick (p : BitVec 32) (s : State) : (setPos p s).tick = s.tick := rfl

@[simp] theorem setCrc_regs (c : BitVec 16) (s : State) : (setCrc c s).regs = { s.regs with crc := c } := rfl
@[simp] theorem setCrc_mem (c : BitVec 16) (s : State) : (setCrc c s).mem = s.mem := rfl
@[simp] theorem setCrc_superseded (c : BitVec 16) (s : State) : (setCrc c s).superseded = s.superseded := rfl
@[simp] theorem setCrc_host (c : BitVec 16) (s : State) : (setCrc c s).host = s.host := rfl
@[simp] theorem setCrc_responses (c : BitVec 16) (s : State) : (setCrc c s).responses = s.responses := rfl
@[simp] theorem setCrc_tick (c : BitVec 16) (s : State) : (setCrc c s).tick = s.tick := rfl

@[simp] theorem bindSlice_regs (len : BitVec 29) (s : State) : (bindSlice len s).regs = { s.regs with bound := true, len := len, pos := 0#32 } := rfl
@[simp] theorem bindSlice_mem (len : BitVec 29) (s : State) : (bindSlice len s).mem = s.mem := rfl
@[simp] theorem bindSlice_superseded (len : BitVec 29) (s : State) : (bindSlice len s).superseded = [] := rfl
@[simp] theorem bindSlice_host (len : BitVec 29) (s : State) : (bindSlice len s).host = s.host := rfl
@[simp] theorem bindSlice_responses (len : BitVec 29) (s : State) : (bindSlice len s).responses = s.responses := rfl
@[simp] theorem bindSlice_tick (len : BitVec 29) (s : State) : (bindSlice len s).tick = s.tick := rfl

@[simp] theorem dropSlice_regs (s : State) : (dropSlice s).regs = { s.regs with bound := false, len := 0#29, pos := 0#32 } := rfl
@[simp] theorem dropSlice_mem (s : State) : (dropSlice s).mem = s.mem := rfl
@[simp] theorem dropSlice_superseded (s : State) : (dropSlice s).superseded = [] := rfl
@[simp] theorem dropSlice_host (s : State) : (dropSlice s).host = s.host := rfl
@[simp] theorem dropSlice_responses (s : State) : (dropSlice s).responses = s.responses := rfl
@[simp] theorem dropSlice_tick (s : State) : (dropSlice s).tick = s.tick := rfl

@[simp] theorem answer_regs (st : Status) (v : Value) (s : State) : (answer st v s).regs = s.regs := rfl
@[simp] theorem answer_mem (st : Status) (v : Value) (s : State) : (answer st v s).mem = s.mem := rfl
@[simp] theorem answer_superseded (st : Status) (v : Value) (s : State) : (answer st v s).superseded = s.superseded := rfl
@[simp] theorem answer_host (st : Status) (v : Value) (s : State) : (answer st v s).host = s.host := rfl
@[simp] theorem answer_responses (st : Status) (v : Value) (s : State) : (answer st v s).responses = s.responses ++ [⟨st, v⟩] := rfl
@[simp] theorem answer_tick (st : Status) (v : Value) (s : State) : (answer st v s).tick = s.tick + 1 := rfl

@[simp] theorem respond_regs (v : Value) (s : State) : (respond v s).regs = s.regs := rfl
@[simp] theorem respond_mem (v : Value) (s : State) : (respond v s).mem = s.mem := rfl
@[simp] theorem respond_superseded (v : Value) (s : State) : (respond v s).superseded = s.superseded := rfl
@[simp] theorem respond_host (v : Value) (s : State) : (respond v s).host = s.host := rfl
@[simp] theorem respond_responses (v : Value) (s : State) : (respond v s).responses = s.responses ++ [⟨.ok, v⟩] := rfl
@[simp] theorem respond_tick (v : Value) (s : State) : (respond v s).tick = s.tick + 1 := rfl

@[simp] theorem raise_regs (f : Status) (s : State) : (raise f s).regs = s.regs := rfl
@[simp] theorem raise_mem (f : Status) (s : State) : (raise f s).mem = s.mem := rfl
@[simp] theorem raise_superseded (f : Status) (s : State) : (raise f s).superseded = s.superseded := rfl
@[simp] theorem raise_host (f : Status) (s : State) : (raise f s).host = s.host := rfl
@[simp] theorem raise_responses (f : Status) (s : State) : (raise f s).responses = s.responses ++ [⟨f, 0#64⟩] := rfl
@[simp] theorem raise_tick (f : Status) (s : State) : (raise f s).tick = s.tick + 1 := rfl

@[simp] theorem rejectWord_regs (e : DecodeError) (s : State) : (rejectWord e s).regs = s.regs := rfl
@[simp] theorem rejectWord_mem (e : DecodeError) (s : State) : (rejectWord e s).mem = s.mem := rfl
@[simp] theorem rejectWord_superseded (e : DecodeError) (s : State) : (rejectWord e s).superseded = s.superseded := rfl
@[simp] theorem rejectWord_host (e : DecodeError) (s : State) : (rejectWord e s).host = s.host := rfl
@[simp] theorem rejectWord_responses (e : DecodeError) (s : State) : (rejectWord e s).responses = s.responses ++ [⟨.eIllegal, 0#64⟩] := rfl
@[simp] theorem rejectWord_tick (e : DecodeError) (s : State) : (rejectWord e s).tick = s.tick + 1 := rfl

@[simp] theorem applyReset_regs (s : State) : (applyReset s).regs = Regs.reset := rfl
@[simp] theorem applyReset_mem (s : State) : (applyReset s).mem = s.mem := rfl
@[simp] theorem applyReset_superseded (s : State) : (applyReset s).superseded = [] := rfl
@[simp] theorem applyReset_host (s : State) : (applyReset s).host = s.host := rfl
@[simp] theorem applyReset_responses (s : State) : (applyReset s).responses = s.responses := rfl
@[simp] theorem applyReset_tick (s : State) : (applyReset s).tick = s.tick := rfl

@[simp] theorem cutOff_regs (w : CmdWord) (s : State) : (cutOff w s).regs = Regs.reset := rfl
@[simp] theorem cutOff_mem (w : CmdWord) (s : State) : (cutOff w s).mem = s.mem := rfl
@[simp] theorem cutOff_superseded (w : CmdWord) (s : State) : (cutOff w s).superseded = [] := rfl
@[simp] theorem cutOff_host (w : CmdWord) (s : State) : (cutOff w s).host = s.host := rfl
@[simp] theorem cutOff_responses (w : CmdWord) (s : State) : (cutOff w s).responses = s.responses ++ (Config.cutOffResponse s.tick).toList := rfl
@[simp] theorem cutOff_tick (w : CmdWord) (s : State) : (cutOff w s).tick = s.tick + 1 := rfl

@[simp] theorem hostStore_regs (addr : BitVec 29) (b : Byte) (s : State) : (hostStore addr b s).regs = s.regs := rfl
@[simp] theorem hostStore_mem (addr : BitVec 29) (b : Byte) (s : State) : (hostStore addr b s).mem = memSet s.mem addr.toNat b := rfl
@[simp] theorem hostStore_host (addr : BitVec 29) (b : Byte) (s : State) : (hostStore addr b s).host = s.host := rfl
@[simp] theorem hostStore_responses (addr : BitVec 29) (b : Byte) (s : State) : (hostStore addr b s).responses = s.responses := rfl
@[simp] theorem hostStore_tick (addr : BitVec 29) (b : Byte) (s : State) : (hostStore addr b s).tick = s.tick := rfl

end Sys2Proof.Machine
end

