-- ==== Sys2Proof/Laws/Memory.lean ====
section
/-! SUPPORT. The laws of the host's bytes: a store is seen at its address and nowhere else, and every operation keeps
the canonical form. -/

namespace Sys2Proof.Machine

@[simp] theorem memGet_nil (x : Nat) : memGet [] x = unlistedByte := rfl

theorem memGet_cons (c : Host.Cell) (m : Memory) (x : Nat) :
    memGet (c :: m) x = if x = c.1 then c.2 else memGet m x := rfl

/-- An address below every listed one is unlisted. -/
theorem memGet_unlisted {m : Memory} {x : Nat} (h : ∀ c ∈ m, x < c.1) : memGet m x = unlistedByte := by
  induction m with
  | nil => rfl
  | cons c m ih =>
    have hc := h c (by simp)
    rw [memGet_cons, if_neg (by omega)]
    exact ih fun d hd => h d (by simp [hd])

theorem memSet_mem {m : Memory} {x : Nat} {v : Byte} {c : Host.Cell} (h : c ∈ memSet m x v) :
    (c = (x, v) ∧ v ≠ unlistedByte) ∨ c ∈ m := by
  induction m with
  | nil =>
    unfold memSet at h
    split at h <;> simp_all
  | cons d m ih =>
    unfold memSet at h
    split at h
    · split at h <;> simp_all
    · split at h
      · split at h <;> simp_all
        rcases h with h | h <;> simp_all
      · rcases List.mem_cons.1 h with h | h
        · simp_all
        · rcases ih h with h | h <;> simp_all

/-- A store keeps the canonical form. -/
theorem memSet_wf {m : Memory} (x : Nat) (v : Byte) (h : Memory.wf m) : Memory.wf (memSet m x v) := by
  refine ⟨?_, fun c hc => ?_⟩
  · obtain ⟨hp, -⟩ := h
    induction m with
    | nil => unfold memSet; split <;> simp
    | cons d m ih =>
      obtain ⟨hd, hm⟩ := List.pairwise_cons.1 hp
      unfold memSet
      split
      · split
        · exact hp
        · refine List.pairwise_cons.2 ⟨fun c hc => ?_, hp⟩
          rcases List.mem_cons.1 hc with rfl | hc
          · assumption
          · have := hd c hc
            dsimp only at *
            omega
      · split
        · split
          · exact hm
          · exact List.pairwise_cons.2 ⟨hd, hm⟩
        · refine List.pairwise_cons.2 ⟨fun c hc => ?_, ih hm⟩
          rcases memSet_mem hc with ⟨rfl, -⟩ | hc
          · dsimp only at *
            omega
          · exact hd c hc
  · rcases memSet_mem hc with ⟨rfl, hv⟩ | hc
    · exact hv
    · exact h.2 c hc

/-- The byte stored is the byte read. -/
theorem memGet_memSet_same {m : Memory} (x : Nat) (v : Byte) (h : Memory.wf m) : memGet (memSet m x v) x = v := by
  induction m with
  | nil => unfold memSet; split <;> simp_all [memGet]
  | cons d m ih =>
    obtain ⟨hp, hn⟩ := h
    obtain ⟨hd, hm⟩ := List.pairwise_cons.1 hp
    unfold memSet
    split
    · split
      · rename_i hlt hv
        rw [hv]
        refine memGet_unlisted fun c hc => ?_
        rcases List.mem_cons.1 hc with rfl | hc
        · exact hlt
        · exact Nat.lt_trans hlt (hd c hc)
      · simp [memGet_cons]
    · split
      · split
        · rename_i he hv
          rw [hv, he]
          exact memGet_unlisted fun c hc => hd c hc
        · rename_i he _
          simp [memGet_cons, he]
      · rename_i hne
        rw [memGet_cons, if_neg hne]
        exact ih ⟨hm, fun c hc => hn c (by simp [hc])⟩

/-- A store leaves every other address alone. -/
theorem memGet_memSet_ne (m : Memory) {x y : Nat} (v : Byte) (h : y ≠ x) :
    memGet (memSet m x v) y = memGet m y := by
  induction m with
  | nil => unfold memSet; split <;> simp [memGet, h]
  | cons d m ih =>
    unfold memSet
    split
    · split <;> simp [memGet_cons, h]
    · split
      · rename_i he
        split <;> simp [memGet_cons, he ▸ h]
      · simp [memGet_cons, ih]

theorem reset_mem_wf : Memory.wf State.reset.mem := by decide

end Sys2Proof.Machine
end

