-- ==== Sys2Proof/Laws/Stream.lean ====
section
/-! SUPPORT. The small lemmas of the stream primitives (spec/20_memory.md R30 to R32). -/

namespace Sys2Proof.Machine

/-- While the slice is as it was bound, `MemRead` returns the byte in place (20_memory.md R30). -/
theorem memRead_kept {s : State} (h : s.superseded = []) (look p addr : Nat) :
    memRead s look p addr = memGet s.mem addr := by
  simp [memRead, olderBytes, h]

/-- `MemRead` returns the byte in place or one of the older ones (20_memory.md R38). -/
theorem memRead_cases (s : State) (look p addr : Nat) :
    memRead s look p addr = memGet s.mem addr ∨ memRead s look p addr ∈ olderBytes s addr := by
  unfold memRead
  split
  · exact .inl rfl
  · rename_i o os h
    rw [h, List.getD_eq_getElem?_getD]
    rcases hk : (memGet s.mem addr :: o :: os)[Config.staleChoice s.tick look p]? with _ | b
    · exact .inl rfl
    · simpa using List.mem_of_getElem? hk

/-- The bytes a store of the host's leaves in doubt: the one it replaces, at its own address, if it changes a byte of the
bound slice (20_memory.md R38). -/
theorem olderBytes_hostStore (addr : BitVec 29) (b : Byte) (s : State) (a : Nat) :
    olderBytes (hostStore addr b s) a
      = if (s.regs.bound = true ∧ addr.toNat < s.regs.len.toNat ∧ memGet s.mem addr.toNat ≠ b) ∧ a = addr.toNat
        then memGet s.mem a :: olderBytes s a else olderBytes s a := by
  unfold olderBytes hostStore
  by_cases hc : s.regs.bound = true ∧ addr.toNat < s.regs.len.toNat ∧ memGet s.mem addr.toNat ≠ b
  · by_cases ha : a = addr.toNat
    · subst ha
      simp [hc]
    · simp [hc, ha, Ne.symm ha]
  · simp only [hc, if_false, false_and]

/-- Past the end of the slice every bit is 0 (20_memory.md R31). -/
theorem bit_past_end {s : State} {p : Nat} (look : Nat) (h : 8 * s.regs.len.toNat ≤ p) : bit s look p = 0 := by
  simp [bit, h]

theorem bit_lt_two (s : State) (look p : Nat) : bit s look p < 2 := by
  unfold bit
  split <;> omega

@[simp] theorem bits_zero (s : State) (look p : Nat) : bits s look p 0 = 0 := rfl

theorem bits_succ (s : State) (look p n : Nat) :
    bits s look p (n + 1) = bits s look p n * 2 + bit s look (p + n) := rfl

theorem bits_lt (s : State) (look p n : Nat) : bits s look p n < 2 ^ n := by
  induction n with
  | zero => simp
  | succ n ih =>
    have := bit_lt_two s look (p + n)
    rw [bits_succ, Nat.pow_succ]
    omega

/-- `bits` sees the stream only through `bit`. -/
theorem bits_congr {s t : State} {l l' p q n : Nat} (h : ∀ i < n, bit s l (p + i) = bit t l' (q + i)) :
    bits s l p n = bits t l' q n := by
  induction n with
  | zero => rfl
  | succ n ih => rw [bits_succ, bits_succ, ih fun i hi => h i (by omega), h n (by omega)]

end Sys2Proof.Machine
end

