-- ==== Sys2Proof/Laws/Crc.lean ====
section
/-! SUPPORT. The small lemmas of the CRC walk (spec/42_crc16.md R119). -/

namespace Sys2Proof.Machine

@[simp] theorem crcNibbles_zero (s : State) (p : Nat) (c : BitVec 16) : crcNibbles s 0 p c = c := rfl

theorem crcNibbles_succ (s : State) (k p : Nat) (c : BitVec 16) :
    crcNibbles s (k + 1) p c = crcNibbles s k (p + 4) (crcStep c (BitVec.ofNat 4 (bits s 0 p 4))) := rfl

/-- The walk of j + k nibbles is the walk of j, then of k. -/
theorem crcNibbles_add (s : State) (j k p : Nat) (c : BitVec 16) :
    crcNibbles s (j + k) p c = crcNibbles s k (p + 4 * j) (crcNibbles s j p c) := by
  induction j generalizing p c with
  | zero => simp
  | succ j ih =>
    rw [show j + 1 + k = j + k + 1 by omega, crcNibbles_succ, crcNibbles_succ, ih,
      show p + 4 + 4 * j = p + 4 * (j + 1) by omega]

/-- The walk sees the stream only through `bit`. -/
theorem crcNibbles_congr {s t : State} {k p : Nat} (c : BitVec 16)
    (h : ∀ i < 4 * k, bit s 0 (p + i) = bit t 0 (p + i)) : crcNibbles s k p c = crcNibbles t k p c := by
  induction k generalizing p c with
  | zero => rfl
  | succ k ih =>
    have h4 : bits s 0 p 4 = bits t 0 p 4 := bits_congr fun i hi => h i (by omega)
    rw [crcNibbles_succ, crcNibbles_succ, h4]
    refine ih _ fun i hi => ?_
    rw [show p + 4 + i = p + (4 + i) by omega]
    exact h _ (by omega)

end Sys2Proof.Machine
end

