-- ==== Sys2Proof/Laws/PerInstr.lean ====
section
/-! SUPPORT. Per command: its encoding satisfies its row of the opcode map (spec/30_encoding.md R53). -/

namespace Sys2Proof.Laws.EncodedRow

/-- The row of a command. -/
def rowOf : Instr → OpRow
  | .bind _ => rowBind
  | .unbind => rowUnbind
  | .read _ => rowRead
  | .peek _ => rowPeek
  | .skip _ => rowSkip
  | .pos => rowPos
  | .align _ => rowAlign
  | .varf _ _ _ _ _ => rowVarf
  | .crcchk _ _ => rowCrcchk

/-- The encoded word passes its row's test `cmd & mask = match`. -/
def Statement (i : Instr) : Prop := encode i &&& (rowOf i).mask = (rowOf i).pattern

/-- A mask written field by field. -/
theorem packWord_and (o o' : BitVec 8) (a a' : BitVec 32) (b b' : BitVec 24) :
    packWord o a b &&& packWord o' a' b' = packWord (o &&& o') (a &&& a') (b &&& b') := by
  unfold packWord
  rw [BitVec.and_append, BitVec.and_append]

theorem bind (len : BitVec 32) : Statement (.bind len) := by
  show packWord 0x01#8 len 0#24 &&& packWord 0xFF#8 0#32 0xFFFFFF#24 = _
  rw [packWord_and]
  simp [packWord, rowOf, rowBind]

theorem unbind : Statement .unbind := by
  unfold Statement
  decide

theorem read (n : BitVec 7) : Statement (.read n) := by
  show packWord 0x10#8 0#32 (packCount n) &&& packWord 0xFF#8 0xFFFFFFFF#32 (0x1FFFF#17 ++ 0#7) = _
  rw [packWord_and, packCount, BitVec.and_append]
  simp [packWord, rowOf, rowRead]

theorem peek (n : BitVec 7) : Statement (.peek n) := by
  show packWord 0x11#8 0#32 (packCount n) &&& packWord 0xFF#8 0xFFFFFFFF#32 (0x1FFFF#17 ++ 0#7) = _
  rw [packWord_and, packCount, BitVec.and_append]
  simp [packWord, rowOf, rowPeek]

theorem skip (n : BitVec 32) : Statement (.skip n) := by
  show packWord 0x12#8 n 0#24 &&& packWord 0xFF#8 0#32 0xFFFFFF#24 = _
  rw [packWord_and]
  simp [packWord, rowOf, rowSkip]

theorem pos : Statement .pos := by
  unfold Statement
  decide

theorem align (t : BitVec 32) : Statement (.align t) := by
  show packWord 0x14#8 t 0#24 &&& packWord 0xFF#8 0#32 0xFFFFFF#24 = _
  rw [packWord_and]
  simp [packWord, rowOf, rowAlign]

theorem varf (w0 w1 w2 w3 : BitVec 6) (add : Bool) : Statement (.varf w0 w1 w2 w3 add) := by
  show packWord 0x20#8 (packWidths w0 w1 w2 w3 add) 0#24
    &&& packWord 0xFF#8 (0x7F#7 ++ 0#1 ++ 0#6 ++ 0#6 ++ 0#6 ++ 0#6) 0xFFFFFF#24 = _
  rw [packWord_and, packWidths, BitVec.and_append, BitVec.and_append, BitVec.and_append, BitVec.and_append,
    BitVec.and_append]
  simp [packWord, rowOf, rowVarf]

theorem crcchk (start : BitVec 32) (nbytes : BitVec 24) : Statement (.crcchk start nbytes) := by
  show packWord 0x30#8 start nbytes &&& packWord 0xFF#8 0#32 0#24 = _
  rw [packWord_and]
  simp [packWord, rowOf, rowCrcchk]

end Sys2Proof.Laws.EncodedRow
end

