-- ==== Sys2Proof/Laws/Encoding.lean ====
section
/-! SUPPORT. The fields of a packed word in integers, and reading them back (spec/30_encoding.md R51, R52). -/

namespace Sys2Proof

theorem toNat_packWord (op : BitVec 8) (a : BitVec 32) (b : BitVec 24) :
    (packWord op a b).toNat = op.toNat * 2 ^ 56 + a.toNat * 2 ^ 24 + b.toNat := by
  unfold packWord
  simp only [BitVec.toNat_append]
  rw [← Nat.shiftLeft_add_eq_or_of_lt (by omega), ← Nat.shiftLeft_add_eq_or_of_lt (by omega)]
  simp only [Nat.shiftLeft_eq]
  ring

theorem toNat_fieldOp (w : CmdWord) : (fieldOp w).toNat = w.toNat / 2 ^ 56 := by
  simp only [fieldOp, BitVec.extractLsb'_toNat, Nat.shiftRight_eq_div_pow]
  omega

theorem toNat_fieldA (w : CmdWord) : (fieldA w).toNat = w.toNat / 2 ^ 24 % 2 ^ 32 := by
  simp only [fieldA, BitVec.extractLsb'_toNat, Nat.shiftRight_eq_div_pow]

theorem toNat_fieldB (w : CmdWord) : (fieldB w).toNat = w.toNat % 2 ^ 24 := by
  simp only [fieldB, BitVec.extractLsb'_toNat, Nat.shiftRight_zero]

@[simp] theorem fieldOp_packWord (op : BitVec 8) (a : BitVec 32) (b : BitVec 24) :
    fieldOp (packWord op a b) = op := by
  apply BitVec.eq_of_toNat_eq
  rw [toNat_fieldOp, toNat_packWord]
  omega

@[simp] theorem fieldA_packWord (op : BitVec 8) (a : BitVec 32) (b : BitVec 24) :
    fieldA (packWord op a b) = a := by
  apply BitVec.eq_of_toNat_eq
  rw [toNat_fieldA, toNat_packWord]
  omega

@[simp] theorem fieldB_packWord (op : BitVec 8) (a : BitVec 32) (b : BitVec 24) :
    fieldB (packWord op a b) = b := by
  apply BitVec.eq_of_toNat_eq
  rw [toNat_fieldB, toNat_packWord]
  omega

/-- A word is its three fields side by side (30_encoding.md R51). -/
theorem packWord_fields (w : CmdWord) : packWord (fieldOp w) (fieldA w) (fieldB w) = w := by
  apply BitVec.eq_of_toNat_eq
  rw [toNat_packWord, toNat_fieldOp, toNat_fieldA, toNat_fieldB]
  omega

theorem toNat_packCount (n : BitVec 7) : (packCount n).toNat = n.toNat := by
  unfold packCount
  rw [BitVec.toNat_append]
  simp

theorem toNat_packWidths (w0 w1 w2 w3 : BitVec 6) (add : Bool) :
    (packWidths w0 w1 w2 w3 add).toNat
      = w0.toNat + w1.toNat * 2 ^ 6 + w2.toNat * 2 ^ 12 + w3.toNat * 2 ^ 18 + add.toNat * 2 ^ 24 := by
  unfold packWidths
  simp only [BitVec.toNat_append, BitVec.toNat_ofBool]
  have := add.toNat_lt
  rw [← Nat.shiftLeft_add_eq_or_of_lt (by omega), ← Nat.shiftLeft_add_eq_or_of_lt (by omega),
    ← Nat.shiftLeft_add_eq_or_of_lt (by omega), ← Nat.shiftLeft_add_eq_or_of_lt (by omega),
    ← Nat.shiftLeft_add_eq_or_of_lt (by omega)]
  simp only [Nat.shiftLeft_eq, BitVec.toNat_ofNat]
  ring

/-- The eight bytes of a word, joined again, are the word (30_encoding.md R62). -/
theorem wordBytes_join (w : BitVec 64) :
    w.extractLsb' 56 8 ++ w.extractLsb' 48 8 ++ w.extractLsb' 40 8 ++ w.extractLsb' 32 8
      ++ w.extractLsb' 24 8 ++ w.extractLsb' 16 8 ++ w.extractLsb' 8 8 ++ w.extractLsb' 0 8 = w := by
  apply BitVec.eq_of_toNat_eq
  simp only [BitVec.toNat_append]
  rw [← Nat.shiftLeft_add_eq_or_of_lt (by omega), ← Nat.shiftLeft_add_eq_or_of_lt (by omega),
    ← Nat.shiftLeft_add_eq_or_of_lt (by omega), ← Nat.shiftLeft_add_eq_or_of_lt (by omega),
    ← Nat.shiftLeft_add_eq_or_of_lt (by omega), ← Nat.shiftLeft_add_eq_or_of_lt (by omega),
    ← Nat.shiftLeft_add_eq_or_of_lt (by omega)]
  simp only [Nat.shiftLeft_eq, BitVec.extractLsb'_toNat, Nat.shiftRight_eq_div_pow]
  omega

/-- A row's test passed, and which command it gives. -/
theorem matchRow_ok_iff {r : OpRow} {w : CmdWord} {i j : Instr} :
    matchRow r w i = .ok j ↔ w &&& r.mask = r.pattern ∧ i = j := by
  unfold matchRow
  split <;> simp_all

end Sys2Proof
end

