-- ==== Sys2Proof/Laws/Exec.lean ====
section
/-! SUPPORT. What the shared operations of the meanings, and a step, can do: one lemma each. -/

namespace Sys2Proof.Machine

/-- The bound-slice check: on, or `E_NULL` (spec/60_exceptions.md R163). -/
theorem needSlice_cases (s k : State) :
    (s.regs.bound = true ∧ needSlice s k = k) ∨ (s.regs.bound = false ∧ needSlice s k = raise .eNull s) := by
  cases h : s.regs.bound <;> simp [needSlice, h]

/-- The operand range check: on, or `E_RANGE` (R164). -/
theorem needRange_cases (legal : Bool) (s k : State) :
    (legal = true ∧ needRange legal s k = k) ∨ (legal = false ∧ needRange legal s k = raise .eRange s) := by
  cases legal <;> simp [needRange]

/-- The move of the cursor: past `POS_MAX` nothing but the fault, else the new position (R164c). -/
theorem advance_cases (n : Nat) (v : Value) (s : State) :
    (s.regs.pos.toNat + n ≤ Config.posMax
        ∧ advance n v s = respond v (setPos (BitVec.ofNat 32 (s.regs.pos.toNat + n)) s))
      ∨ (Config.posMax < s.regs.pos.toNat + n ∧ advance n v s = raise .eRange s) := by
  unfold advance
  split
  · exact .inr ⟨by omega, rfl⟩
  · exact .inl ⟨by omega, rfl⟩

/-- A legal new position fits the register. -/
theorem toNat_ofNat_pos {n : Nat} (h : n ≤ Config.posMax) : (BitVec.ofNat 32 n).toNat = n := by
  have : n < 2 ^ 32 := by unfold Config.posMax at h; omega
  simpa using Nat.mod_eq_of_lt this

/-- A bit count of a READ fits the response value. -/
theorem toNat_ofNat_bits (s : State) (look p : Nat) {n : Nat} (h : n ≤ 64) :
    (BitVec.ofNat 64 (bits s look p n)).toNat = bits s look p n := by
  have h1 := bits_lt s look p n
  have h2 : 2 ^ n ≤ 2 ^ 64 := Nat.pow_le_pow_right (by norm_num) h
  rw [BitVec.toNat_ofNat]
  exact Nat.mod_eq_of_lt (by omega)

/-- A step with a command on the host's list. -/
theorem step_command {s : State} {w : CmdWord} {rest : List HostEvent} (h : s.host = .command w :: rest) :
    step s = match decode w with
      | .ok i => exec i { s with host := rest }
      | .error e => .next (rejectWord e { s with host := rest }) := by
  cases hd : decode w <;> simp only [step, nextEvent, h, hd]

/-- A step with nothing on the host's list. -/
theorem step_idle {s : State} (h : s.host = []) : step s = .next s := by
  simp only [step, nextEvent, h]

theorem step_reset {s : State} {rest : List HostEvent} (h : s.host = .reset :: rest) :
    step s = .next (applyReset { s with host := rest }) := by
  simp only [step, nextEvent, h]

theorem step_resetDuring {s : State} {w : CmdWord} {rest : List HostEvent} (h : s.host = .resetDuring w :: rest) :
    step s = .next (cutOff w { s with host := rest }) := by
  simp only [step, nextEvent, h]

theorem step_store {s : State} {a : BitVec 29} {b : Byte} {rest : List HostEvent}
    (h : s.host = .store a b :: rest) : step s = .next (hostStore a b { s with host := rest }) := by
  simp only [step, nextEvent, h]

end Sys2Proof.Machine
end

