-- ==== Sys2Proof/Laws/Operands.lean ====
section
/-! SUPPORT. What the operand checks say, in numbers, and the VarField table and prefix (spec/41_varfield.md). -/

namespace Sys2Proof.Machine

/-- Taking a fault, in the terms claims are stated in. -/
theorem raise_eq_faulted (f : Status) (s : State) : raise f s = faulted s f := rfl

/-- Answering after a move of the cursor, in the terms claims are stated in. -/
theorem respond_setPos (v : Value) (p : BitVec 32) (s : State) :
    respond v (setPos p s) = answered s { s.regs with pos := p } v := rfl

/-- Answering after a write of `crc`, in the terms claims are stated in. -/
theorem respond_setCrc (v : Value) (c : BitVec 16) (s : State) :
    respond v (setCrc c s) = answered s { s.regs with crc := c } v := rfl

/-- Answering with no register written, in the terms claims are stated in. -/
theorem respond_eq_answered (v : Value) (s : State) : respond v s = answered s s.regs v := rfl

theorem lengthLegal_iff (len : BitVec 32) : lengthLegal len = true ↔ len.toNat ≤ 2 ^ 29 - 1 := by
  unfold lengthLegal Config.lenMax
  exact decide_eq_true_iff

theorem countLegal_iff (n : BitVec 7) : countLegal n = true ↔ 1 ≤ n.toNat ∧ n.toNat ≤ 64 := by
  unfold countLegal Config.nMin Config.nMax
  exact decide_eq_true_iff

theorem widthLegal_iff (w : BitVec 6) : widthLegal w = true ↔ w.toNat ≤ 32 := by
  unfold widthLegal Config.vfWMax
  exact decide_eq_true_iff

theorem widthsLegal_iff (w0 w1 w2 w3 : BitVec 6) :
    (widthLegal w0 && widthLegal w1 && widthLegal w2 && widthLegal w3) = true ↔ widthsAtMost32 w0 w1 w2 w3 := by
  simp only [Bool.and_eq_true, widthLegal_iff, and_assoc]

/-- A legal table has no width above 32 at any index. -/
theorem varfWidth_le {w0 w1 w2 w3 : BitVec 6} (h : widthsAtMost32 w0 w1 w2 w3) (k : Nat) :
    varfWidth w0 w1 w2 w3 k ≤ 32 := by
  obtain ⟨h0, h1, h2, h3⟩ := h
  rcases k with _ | _ | _ | k <;> assumption

/-- The prefix table as rows (41_varfield.md R102). -/
theorem prefixRow_iff {P index used : Nat} (h : P < 8) :
    prefixRow P index used ↔ prefixTable P = (index, used) := by
  unfold prefixRow prefixTable
  interval_cases P <;> simp <;> omega

@[simp] theorem varfBase_zero (W : Nat → Nat) : varfBase W 0 = 0 := rfl

theorem varfBase_succ (W : Nat → Nat) (k : Nat) : varfBase W (k + 1) = varfBase W k + 2 ^ W k := rfl

/-- With a legal table every value fits well inside the response (41_varfield.md R101). -/
theorem varfValue_lt {w0 w1 w2 w3 : BitVec 6} (h : widthsAtMost32 w0 w1 w2 w3) (s : State) (add : Bool)
    {index : Nat} (used : Nat) (hi : index ≤ 3) :
    varfValue s (varfWidth w0 w1 w2 w3) add index used < 2 ^ 34 := by
  have hp : ∀ k, 2 ^ varfWidth w0 w1 w2 w3 k ≤ 2 ^ 32 :=
    fun k => Nat.pow_le_pow_right (by norm_num) (varfWidth_le h k)
  have hb : ∀ k ≤ 3, varfBase (varfWidth w0 w1 w2 w3) k ≤ k * 2 ^ 32 := by
    intro k
    induction k with
    | zero => simp
    | succ k ih =>
      intro hk
      have h1 := ih (by omega)
      have h2 := hp k
      rw [varfBase_succ]
      omega
  have h1 := hb index hi
  have h2 := bits_lt s 1 (s.regs.pos.toNat + used) (varfWidth w0 w1 w2 w3 index)
  have h3 := hp index
  unfold varfValue
  split <;> split <;> omega

end Sys2Proof.Machine
end

