-- ==== Sys2Proof/Laws/Inversion.lean ====
section
/-! SUPPORT. Once, what executing a command can do: fault, or complete. Later proofs cite `exec_cases` instead of
unfolding the nine meanings. -/

namespace Sys2Proof.Machine

/-- The command `i` completed from `s` in `t` (spec/10_state.md R21, 30_encoding.md R60). -/
structure Completed (i : Instr) (s t : State) : Prop where
  mem : t.mem = s.mem
  host : t.host = s.host
  responses : ∃ v, t.responses = s.responses ++ [⟨.ok, v⟩]
  tick : t.tick = s.tick + 1
  keeps : rebinds i = false → t.regs.bound = s.regs.bound ∧ t.regs.len = s.regs.len
    ∧ t.superseded = s.superseded ∧ s.regs.pos.toNat ≤ t.regs.pos.toNat
  bound : needsSlice i = true → s.regs.bound = true
  crc : (∀ start nbytes, i ≠ .crcchk start nbytes) → t.regs.crc = s.regs.crc
  pos : ((∃ n, i = .peek n) ∨ i = .pos ∨ ∃ start nbytes, i = .crcchk start nbytes) → t.regs.pos = s.regs.pos
  fresh : rebinds i = true → t.superseded = [] ∧ (t.regs.bound = false → t.regs.len = 0#29 ∧ t.regs.pos = 0#32)

/-- A command of the block took one of its own faults, or completed. -/
def Ends (i : Instr) (s t : State) : Prop :=
  (∃ f, f ≠ .ok ∧ f ≠ .eIllegal ∧ t = raise f s) ∨ Completed i s t

theorem ends_raise (i : Instr) (s : State) {f : Status} (h : f ≠ .ok ∧ f ≠ .eIllegal) : Ends i s (raise f s) :=
  .inl ⟨f, h.1, h.2, rfl⟩

theorem ends_needSlice {i : Instr} {s k : State} (h : s.regs.bound = true → Ends i s k) :
    Ends i s (needSlice s k) := by
  rcases needSlice_cases s k with ⟨hb, e⟩ | ⟨-, e⟩
  · rw [e]; exact h hb
  · rw [e]; exact ends_raise i s (by decide)

theorem ends_needRange {i : Instr} {s k : State} (legal : Bool) (h : Ends i s k) :
    Ends i s (needRange legal s k) := by
  rcases needRange_cases legal s k with ⟨-, e⟩ | ⟨-, e⟩
  · rw [e]; exact h
  · rw [e]; exact ends_raise i s (by decide)

/-- A command that may only have moved the cursor forward. -/
theorem completed_forward {i : Instr} {s : State} (v : Value) {p : BitVec 32} (hr : rebinds i = false)
    (hb : s.regs.bound = true) (hp : s.regs.pos.toNat ≤ p.toNat)
    (hk : ((∃ n, i = .peek n) ∨ i = .pos ∨ ∃ start nbytes, i = .crcchk start nbytes) → p = s.regs.pos) :
    Ends i s (respond v (setPos p s)) :=
  .inr ⟨rfl, rfl, ⟨v, rfl⟩, rfl, fun _ => ⟨rfl, rfl, rfl, hp⟩, fun _ => hb, fun _ => rfl, hk,
    fun h => by rw [hr] at h; cases h⟩

theorem ends_advance {i : Instr} {s : State} (n : Nat) (v : Value) (hr : rebinds i = false)
    (hb : s.regs.bound = true)
    (hk : ¬ ((∃ n, i = .peek n) ∨ i = .pos ∨ ∃ start nbytes, i = .crcchk start nbytes)) :
    Ends i s (advance n v s) := by
  rcases advance_cases n v s with ⟨h, e⟩ | ⟨-, e⟩
  · rw [e]
    exact completed_forward v hr hb (by rw [toNat_ofNat_pos h]; omega) fun h => absurd h hk
  · rw [e]; exact ends_raise i s (by decide)

/-- Everything executing a command can do. -/
theorem exec_cases (i : Instr) (s : State) : ∃ t, exec i s = .next t ∧ Ends i s t := by
  cases i with
  | bind len =>
    exact ⟨_, rfl, ends_needRange _ (.inr ⟨rfl, rfl, ⟨_, rfl⟩, rfl, by simp [rebinds], by simp [needsSlice],
      fun _ => rfl, by simp, fun _ => ⟨rfl, by simp⟩⟩)⟩
  | unbind =>
    exact ⟨_, rfl, .inr ⟨rfl, rfl, ⟨_, rfl⟩, rfl, by simp [rebinds], by simp [needsSlice],
      fun _ => rfl, by simp, fun _ => ⟨rfl, by simp⟩⟩⟩
  | read n => exact ⟨_, rfl, ends_needSlice fun hb => ends_needRange _ (ends_advance _ _ rfl hb (by simp))⟩
  | peek n =>
    exact ⟨_, rfl, ends_needSlice fun hb => ends_needRange _
      (completed_forward (p := s.regs.pos) _ rfl hb le_rfl fun _ => rfl)⟩
  | skip n => exact ⟨_, rfl, ends_needSlice fun hb => ends_advance _ _ rfl hb (by simp)⟩
  | pos =>
    exact ⟨_, rfl, ends_needSlice fun hb => completed_forward (p := s.regs.pos) _ rfl hb le_rfl fun _ => rfl⟩
  | align t =>
    refine ⟨_, rfl, ends_needSlice fun hb => ?_⟩
    split
    · exact ends_raise _ s (by decide)
    · exact completed_forward _ rfl hb (by omega) (by simp)
  | varf w0 w1 w2 w3 add =>
    refine ⟨_, rfl, ends_needSlice fun hb => ends_needRange _ ?_⟩
    unfold decodeVarfield
    split
    exact ends_advance _ _ rfl hb (by simp)
  | crcchk start nbytes =>
    exact ⟨_, rfl, ends_needSlice fun hb => .inr ⟨rfl, rfl, ⟨_, rfl⟩, rfl, fun _ => ⟨rfl, rfl, rfl, le_rfl⟩,
      fun _ => hb, by simp, fun _ => rfl, by simp [rebinds]⟩⟩

/-- If a command answers a next state, that state is one of the ends. -/
theorem exec_ends {i : Instr} {s t : State} (h : exec i s = .next t) : Ends i s t := by
  obtain ⟨u, hu, he⟩ := exec_cases i s
  rw [h] at hu
  cases hu
  exact he

end Sys2Proof.Machine
end

