-- ==== Sys2Proof/Machine/Assembly.lean ====
section
/-! DEFINITION. The textual form of a command (spec/30_encoding.md R63): one command a line, `;` starts a comment,
numbers decimal or 0x hexadecimal, mnemonics in upper case. There are no pseudo-instructions (R64). -/

namespace Sys2Proof.Machine

/-- What one line of text is. -/
inductive AsmLine where
  /-- Nothing but white space and a comment. -/
  | blank
  /-- A command. -/
  | command (i : Instr)
  /-- Not of the form of R63, or a number that does not fit its operand's field (log entry 12). -/
  | malformed
deriving DecidableEq, Repr

/-- The characters that are a token by themselves: the two braces and the comma. -/
def isMark (c : Char) : Bool := c == Char.ofNat 123 || c == Char.ofNat 125 || c == ','

/-- A pending token, if it has any characters (kept in reverse). -/
def flushToken (cur : List Char) : List (List Char) := if cur = [] then [] else [cur.reverse]

/-- Cut a line into tokens; everything from `;` on is a comment. -/
def tokens : List Char → List Char → List (List Char)
  | [], cur => flushToken cur
  | c :: cs, cur =>
    if c = ';' then flushToken cur
    else if c = ' ' ∨ c = '\t' ∨ c = '\r' then flushToken cur ++ tokens cs []
    else if isMark c then flushToken cur ++ [c] :: tokens cs []
    else tokens cs (c :: cur)

/-- The value of a digit in a base. -/
def digitValue (base : Nat) (c : Char) : Option Nat :=
  let n := c.toNat
  let d := if 48 ≤ n ∧ n ≤ 57 then n - 48
    else if 97 ≤ n ∧ n ≤ 102 then n - 87
    else if 65 ≤ n ∧ n ≤ 70 then n - 55
    else base
  if d < base then some d else none

/-- A digit string in a base, most significant digit first. -/
def digits (base : Nat) : List Char → Nat → Option Nat
  | [], acc => some acc
  | c :: cs, acc =>
    match digitValue base c with
    | some d => digits base cs (acc * base + d)
    | none => none

/-- A number: decimal, or `0x` hexadecimal (R63). -/
def number : List Char → Option Nat
  | [] => none
  | '0' :: 'x' :: [] => none
  | '0' :: 'x' :: ds => digits 16 ds 0
  | ds => digits 10 ds 0

/-- A number that fits a field of `k` bits. -/
def operand (k : Nat) (tok : List Char) : Option (BitVec k) :=
  match number tok with
  | some n => if n < 2 ^ k then some (BitVec.ofNat k n) else none
  | none => none

/-- The qualifier of a VARF; absent it means `add` (R63). -/
def qualifier : List (List Char) → Option Bool
  | [] => some true
  | [[','], ['a', 'd', 'd']] => some true
  | [[','], ['n', 'o', 'a', 'd', 'd']] => some false
  | _ => none

/-- The operands of a VARF: the table in braces and the qualifier (R63). -/
def varfOperands : List (List Char) → Option Instr
  | [l] :: t0 :: [','] :: t1 :: [','] :: t2 :: [','] :: t3 :: [r] :: rest =>
    if l = Char.ofNat 123 ∧ r = Char.ofNat 125 then do
      let w0 ← operand 6 t0
      let w1 ← operand 6 t1
      let w2 ← operand 6 t2
      let w3 ← operand 6 t3
      let add ← qualifier rest
      some (.varf w0 w1 w2 w3 add)
    else none
  | _ => none

/-- The command a token list spells (R63). -/
def assembleTokens : List (List Char) → Option Instr
  | [['B', 'I', 'N', 'D'], x] => (operand 32 x).map .bind
  | [['U', 'N', 'B', 'I', 'N', 'D']] => some .unbind
  | [['R', 'E', 'A', 'D'], x] => (operand 7 x).map .read
  | [['P', 'E', 'E', 'K'], x] => (operand 7 x).map .peek
  | [['S', 'K', 'I', 'P'], x] => (operand 32 x).map .skip
  | [['P', 'O', 'S']] => some .pos
  | [['A', 'L', 'I', 'G', 'N'], x] => (operand 32 x).map .align
  | ['V', 'A', 'R', 'F'] :: rest => varfOperands rest
  | [['C', 'R', 'C', 'C', 'H', 'K'], x, [','], y] => do
    let start ← operand 32 x
    let nbytes ← operand 24 y
    some (.crcchk start nbytes)
  | _ => none

/-- One line of the textual form (30_encoding.md R63). -/
def assembleLine (line : List Char) : AsmLine :=
  match tokens line [] with
  | [] => .blank
  | toks =>
    match assembleTokens toks with
    | some i => .command i
    | none => .malformed

end Sys2Proof.Machine
end

