-- ==== Sys2Proof/Tests/Slice0.lean ====
section
/-! SUPPORT. The model's own tests and the witnesses of the statements. Expected values come from spec/: the words of
30_encoding.md R65, the vectors of 95_test_vectors.md (named by their ids), and the refused words of R56, R57. -/

namespace Sys2Proof.Tests

open Sys2Proof.Machine

/-! ## Small states -/

/-- The slice holding the bytes, from an address on. -/
def cells : Nat → List Byte → Memory
  | _, [] => []
  | a, b :: bs => if b = 0#8 then cells (a + 1) bs else (a, b) :: cells (a + 1) bs

/-- Bound to the bytes, with the cursor at `pos`, as the vectors of 95_test_vectors.md start. -/
def bound (bytes : List Byte) (pos : Nat) : State :=
  { State.reset with
    regs := ⟨true, BitVec.ofNat 29 bytes.length, BitVec.ofNat 32 pos, 0xFFFF#16⟩, mem := cells 0 bytes }

/-- The state with these acts of the host to come. -/
def withHost (s : State) (es : List HostEvent) : State := { s with host := es }

/-- One step with the word presented. -/
def run1 (w : Nat) (s : State) : Host.Outcome State Fault Refusal := step (s.withFetchWord 64 w)

/-- The responses and the registers of a next state. -/
def seen : Host.Outcome State Fault Refusal → Option (List Response × Regs)
  | .next t => some (t.responses, t.regs)
  | .fault _ => none
  | .refused _ => none

/-- One response and the registers `bound / len / pos / crc` after it. -/
def saw (st : Status) (v : Nat) (b : Bool) (len pos crc : Nat) : Option (List Response × Regs) :=
  some ([⟨st, BitVec.ofNat 64 v⟩], ⟨b, BitVec.ofNat 29 len, BitVec.ofNat 32 pos, BitVec.ofNat 16 crc⟩)

/-- Slice S8 of 95_test_vectors.md. -/
def s8 : List Byte := [0x40#8, 0x41#8, 0x1B#8, 0xF2#8, 0x2A#8, 0x5C#8, 0x00#8, 0xFF#8]

/-- The window of vector K8. -/
def k8 : List Byte := [0x40#8, 0x41#8, 0x1B#8, 0xF2#8, 0x22#8, 0x00#8, 0x00#8, 0x71#8, 0xB4#8]

/-- The message of vector K5. -/
def k5 : List Byte := [0x31#8, 0x32#8, 0x33#8, 0x34#8, 0x35#8, 0x36#8, 0x37#8, 0x38#8, 0x39#8]

/-! ## WellFormed: an ill-formed term for each check -/

theorem test_wellFormed_refuses_long_bind : wellFormed (.bind 0x20000000#32) = false := by decide
theorem test_wellFormed_takes_longest_bind : wellFormed (.bind 0x1FFFFFFF#32) = true := by decide
theorem test_wellFormed_refuses_read_counts :
    wellFormed (.read 0#7) = false ∧ wellFormed (.read 65#7) = false := by decide
theorem test_wellFormed_refuses_peek_counts :
    wellFormed (.peek 0#7) = false ∧ wellFormed (.peek 65#7) = false := by decide
theorem test_wellFormed_takes_the_end_counts :
    wellFormed (.read 1#7) = true ∧ wellFormed (.read 64#7) = true ∧ wellFormed (.peek 64#7) = true := by decide
theorem test_wellFormed_refuses_each_wide_width :
    wellFormed (.varf 33#6 0#6 0#6 0#6 true) = false ∧ wellFormed (.varf 0#6 33#6 0#6 0#6 true) = false
      ∧ wellFormed (.varf 0#6 0#6 33#6 0#6 true) = false
      ∧ wellFormed (.varf 0#6 0#6 0#6 33#6 true) = false := by decide
theorem test_wellFormed_takes_width_32 : wellFormed (.varf 32#6 32#6 32#6 32#6 false) = true := by decide

/-! ## Decoding: words written out from the encodings -/

/-- Every constructor from its word (R65). -/
theorem test_decode_bind : decodeTableWord 64 0x0100000008000000 = some (.bind 8#32) := by decide
theorem test_decode_unbind : decodeTableWord 64 0x0200000000000000 = some .unbind := by decide
theorem test_decode_read : decodeTableWord 64 0x1000000000000040 = some (.read 64#7) := by decide
theorem test_decode_peek : decodeTableWord 64 0x1100000000000003 = some (.peek 3#7) := by decide
theorem test_decode_skip : decodeTableWord 64 0x12FFFFFFFA000000 = some (.skip 4294967290#32) := by decide
theorem test_decode_pos : decodeTableWord 64 0x1300000000000000 = some .pos := by decide
theorem test_decode_align : decodeTableWord 64 0x1400000028000000 = some (.align 40#32) := by decide
theorem test_decode_varf_add :
    decodeTableWord 64 0x200130A205000000 = some (.varf 5#6 8#6 10#6 12#6 true) := by decide
theorem test_decode_varf_noadd :
    decodeTableWord 64 0x2000810204000000 = some (.varf 4#6 8#6 16#6 32#6 false) := by decide
theorem test_decode_crcchk :
    decodeTableWord 64 0x30FFFFFFFFFFFFFF = some (.crcchk 4294967295#32 16777215#24) := by decide

/-- The other way, from the command to the word of R65. -/
theorem test_encode_varf : encode (.varf 5#6 8#6 10#6 12#6 true) = 0x200130A205000000#64 := by decide
theorem test_encode_crcchk : encode (.crcchk 40#32 3#24) = 0x3000000028000003#64 := by decide

/-- Each illegal word of vectors F1 to F11 is refused for its reason. -/
theorem test_decode_refuses_unassigned :
    decode 0#64 = .error (.unassignedOpcode 0x00#8)
      ∧ decode 0xFF00000000000000#64 = .error (.unassignedOpcode 0xFF#8)
      ∧ decode 0x0300000000000000#64 = .error (.unassignedOpcode 0x03#8)
      ∧ decode 0x1500000000000000#64 = .error (.unassignedOpcode 0x15#8)
      ∧ decode 0x2100000000000000#64 = .error (.unassignedOpcode 0x21#8)
      ∧ decode 0x3100000000000000#64 = .error (.unassignedOpcode 0x31#8) := ⟨rfl, rfl, rfl, rfl, rfl, rfl⟩
theorem test_decode_refuses_reserved_bits :
    decode 0x1300000000000001#64 = .error (.reservedBitSet "POS")
      ∧ decode 0x0200000001000000#64 = .error (.reservedBitSet "UNBIND")
      ∧ decode 0x1000000000000104#64 = .error (.reservedBitSet "READ")
      ∧ decode 0x1200000024000001#64 = .error (.reservedBitSet "SKIP")
      ∧ decode 0x0100000008000001#64 = .error (.reservedBitSet "BIND")
      ∧ decode 0x200230A205000000#64 = .error (.reservedBitSet "VARF")
      ∧ decode 0x200130A205000001#64 = .error (.reservedBitSet "VARF") :=
  ⟨rfl, rfl, rfl, rfl, rfl, rfl, rfl⟩

/-- No two rows of the opcode map share a word (30_encoding.md R53): where both masks look, the patterns differ. -/
theorem test_rows_do_not_overlap :
    opRows.Pairwise (fun r q => r.pattern &&& (r.mask &&& q.mask) ≠ q.pattern &&& (r.mask &&& q.mask)) := by
  decide

/-- Most significant byte first, and bytes left over are given back (R62). -/
theorem test_decodeBytes_order :
    (decodeBytes [0x01#8, 0#8, 0#8, 0#8, 0x0E#8, 0#8, 0#8, 0#8, 0x99#8]).toOption
      = some (.bind 14#32, [0x99#8]) := by decide
theorem test_decodeBytes_refuses_seven_bytes :
    decodeBytes [0x01#8, 0#8, 0#8, 0#8, 0x0E#8, 0#8, 0#8] = .error (.truncated 7) := rfl

/-- The textual form (R63): a default `add`, a `noadd`, a comment, a hexadecimal number, a number too large. -/
theorem test_assemble_crcchk :
    assembleLine "  CRCCHK 0x28, 3 ; chunk".toList = .command (.crcchk 40#32 3#24) := by decide
theorem test_assemble_qualifier :
    varfOperands [[Char.ofNat 123], ['4'], [','], ['8'], [','], ['1', '6'], [','], ['3', '2'], [Char.ofNat 125]]
        = some (.varf 4#6 8#6 16#6 32#6 true)
      ∧ qualifier [[','], ['n', 'o', 'a', 'd', 'd']] = some false := by decide
theorem test_assemble_rejects : assembleLine "READ 128".toList = .malformed := by decide
theorem test_assemble_comment : assembleLine "; nothing".toList = .blank := by decide

/-! ## One step each -/

/-- B24, B29. -/
theorem test_bind : seen (run1 0x0100000008000000 (bound s8 41)) = saw .ok 0 true 8 0 0xFFFF := by decide
theorem test_bind_too_long :
    seen (run1 0x0120000000000000 (bound s8 41)) = saw .eRange 0 true 8 41 0xFFFF := by decide

/-- B25, B26. -/
theorem test_unbind : seen (run1 0x0200000000000000 (bound s8 41)) = saw .ok 0 false 0 0 0xFFFF := by decide
theorem test_unbind_unbound :
    seen (run1 0x0200000000000000 State.reset) = saw .ok 0 false 0 0 0xFFFF := by decide

/-- B7, B32. -/
theorem test_read_over_the_end :
    seen (run1 0x1000000000000008 (bound s8 60)) = saw .ok 0xF0 true 8 68 0xFFFF := by decide
theorem test_read_at_the_last_position :
    seen (run1 0x1000000000000001 (bound [] 4294967295)) = saw .eRange 0 true 0 4294967295 0xFFFF := by decide

/-- B10, B35. -/
theorem test_peek : seen (run1 0x1100000000000003 (bound s8 0)) = saw .ok 2 true 8 0 0xFFFF := by decide
theorem test_peek_at_the_last_position :
    seen (run1 0x1100000000000040 (bound [] 4294967295)) = saw .ok 0 true 0 4294967295 0xFFFF := by decide

/-- B16 (its first command), B34. -/
theorem test_skip_past_the_end :
    seen (run1 0x1200000024000000 (bound s8 32)) = saw .ok 0 true 8 68 0xFFFF := by decide
theorem test_skip_past_the_last_position :
    seen (run1 0x1200000001000000 (bound [] 4294967295)) = saw .eRange 0 true 0 4294967295 0xFFFF := by decide

/-- B38, F19. -/
theorem test_pos :
    seen (run1 0x1300000000000000 (bound [] 4294967295)) = saw .ok 4294967295 true 0 4294967295 0xFFFF := by decide
theorem test_pos_unbound : seen (run1 0x1300000000000000 State.reset) = saw .eNull 0 false 0 0 0xFFFF := by decide

/-- B22, B20. -/
theorem test_align : seen (run1 0x140000000D000000 (bound s8 0)) = saw .ok 0 true 8 13 0xFFFF := by decide
theorem test_align_backward :
    seen (run1 0x1400000027000000 (bound s8 40)) = saw .eBackward 0 true 8 40 0xFFFF := by decide

/-- V23, and run (a) of program P4. -/
theorem test_varf_widest :
    seen (run1 0x2001810204000000 (bound [0xFF#8, 0xFF#8, 0xFF#8, 0xFF#8, 0xE0#8] 0))
      = saw .ok 4295033103 true 5 35 0xFFFF := by decide
theorem test_varf_consumes_only_the_prefix_used :
    seen (run1 0x2001206102000000 (bound [0x80#8, 0xC0#8] 0)) = saw .ok 4 true 2 6 0xFFFF := by decide

/-- K5 (not valid), K24 (an unaligned window; valid). -/
theorem test_crcchk_residual :
    seen (run1 0x3000000000000009 (bound k5 0)) = saw .ok 0x029B1 true 9 0 0x29B1 := by decide
theorem test_crcchk_valid_unaligned :
    seen (run1 0x3000000004000009
        (bound [0xA4#8, 0x04#8, 0x11#8, 0xBF#8, 0x22#8, 0x20#8, 0x00#8, 0x07#8, 0x1B#8, 0x40#8] 4))
      = saw .ok 0x10000 true 10 4 0 := by decide

/-- F6: a reserved bit; F21, F22: the order of the checks. -/
theorem test_illegal_word :
    seen (run1 0x1000000000000104 (bound [0xA5#8] 4)) = saw .eIllegal 0 true 1 4 0xFFFF := by decide
theorem test_null_before_range :
    seen (run1 0x1000000000000000 State.reset) = saw .eNull 0 false 0 0 0xFFFF := by decide
theorem test_illegal_before_null :
    seen (run1 0x1000000000000100 State.reset) = saw .eIllegal 0 false 0 0 0xFFFF := by decide

/-- M4, M11, M13: single bits and zero-fill. -/
theorem test_bits_of_the_slice :
    bit (bound s8 0) 0 15 = 1 ∧ bits (bound s8 0) 0 60 8 = 0xF0
      ∧ bits (bound s8 0) 0 37 64 = 0x4B801FE000000000 := by decide

/-- K3, K4: the nibble step. -/
theorem test_crc_step :
    crcStep 0xFFFF#16 0#4 = 0x0E1F#16 ∧ crcStep 0xFFFF#16 0xF#4 = 0xFFF0#16
      ∧ crcStep 0x1234#16 5#4 = 0x63C4#16 := by decide

/-- 60_exceptions.md R160: the five codes. -/
theorem test_status_codes :
    statusCode .ok = 0#8 ∧ statusCode .eIllegal = 1#8 ∧ statusCode .eNull = 2#8 ∧ statusCode .eRange = 3#8
      ∧ statusCode .eBackward = 4#8 := by decide

/-- A new platform holds reset instances (60_exceptions.md R174). -/
theorem test_platform_reset : (platformReset 2).instances = [State.reset, State.reset] := by decide

/-! ## Witnesses: a state and operands that meet each statement's hypotheses -/

theorem witness_ResetLeavesTheStatedRegisters :
    (withHost (bound s8 5) [.reset]).host = .reset :: []
      ∧ (withHost (bound s8 5) [.resetDuring 0#64]).host = .resetDuring 0#64 :: [] := ⟨rfl, rfl⟩

/-- The last bit of the slice and the first past it. -/
theorem witness_BitTakesMostSignificantFirst :
    sliceKept (bound s8 0) ∧ ¬ 63 ≥ 8 * (bound s8 0).regs.len.toNat ∧ 64 ≥ 8 * (bound s8 0).regs.len.toNat := by
  decide

/-- The last byte of the slice and the first past it. -/
theorem witness_BitsSplitAndReadWholeBytes :
    sliceKept (bound s8 0) ∧ 6 + 1 < (bound s8 0).regs.len.toNat ∧ ¬ 6 + 2 < (bound s8 0).regs.len.toNat := by decide

theorem witness_EncodeInvertsDecode : decode 0x3000000028000003#64 = .ok (.crcchk 40#32 3#24) := rfl

/-- A word for each of the nine cases. -/
theorem witness_OperandsAreTheFormatFields :
    decode 0x01FFFFFFFF000000#64 = .ok (.bind 0xFFFFFFFF#32) ∧ decode 0x0200000000000000#64 = .ok .unbind
      ∧ decode 0x100000000000007F#64 = .ok (.read 127#7) ∧ decode 0x1100000000000000#64 = .ok (.peek 0#7)
      ∧ decode 0x1280000001000000#64 = .ok (.skip 0x80000001#32) ∧ decode 0x1300000000000000#64 = .ok .pos
      ∧ decode 0x1400000003000000#64 = .ok (.align 3#32)
      ∧ decode 0x200184A205000000#64 = .ok (.varf 5#6 8#6 10#6 33#6 true)
      ∧ decode 0x30FFFFFFFFFFFFFF#64 = .ok (.crcchk 0xFFFFFFFF#32 0xFFFFFF#24) :=
  ⟨rfl, rfl, rfl, rfl, rfl, rfl, rfl, rfl, rfl⟩

/-- Both ends of each range of unassigned opcodes. -/
theorem witness_UnassignedOpcodesAnswerIllegal :
    (∀ op ∈ [0x00, 0x03, 0x0F, 0x15, 0x1F, 0x21, 0x2F, 0x31, 0xFF],
      (BitVec.ofNat 64 (op * 2 ^ 56 + 7)).toNat / 2 ^ 56 = op
        ∧ (op = 0x00 ∨ (0x03 ≤ op ∧ op ≤ 0x0F) ∨ (0x15 ≤ op ∧ op ≤ 0x1F) ∨ (0x21 ≤ op ∧ op ≤ 0x2F)
          ∨ (0x31 ≤ op ∧ op ≤ 0xFF)))
      ∧ (withHost (bound s8 3) [.command 0x0300000000000007#64]).host = .command 0x0300000000000007#64 :: [] := by
  decide

/-- A word with one reserved bit set, of each opcode that has reserved bits; and a CRCCHK word. -/
theorem witness_ReservedBitsAnswerIllegal :
    (fieldOp 0x0100000008000001#64 = 0x01#8
        ∧ 0x0100000008000001#64 &&& 0xFF00000000FFFFFF#64 ≠ 0x0100000000000000#64)
      ∧ (fieldOp 0x0280000000000000#64 = 0x02#8
        ∧ 0x0280000000000000#64 &&& 0xFFFFFFFFFFFFFFFF#64 ≠ 0x0200000000000000#64)
      ∧ (fieldOp 0x1000000000000080#64 = 0x10#8
        ∧ 0x1000000000000080#64 &&& 0xFFFFFFFFFFFFFF80#64 ≠ 0x1000000000000000#64)
      ∧ (fieldOp 0x1180000000000003#64 = 0x11#8
        ∧ 0x1180000000000003#64 &&& 0xFFFFFFFFFFFFFF80#64 ≠ 0x1100000000000000#64)
      ∧ (fieldOp 0x1200000024800000#64 = 0x12#8
        ∧ 0x1200000024800000#64 &&& 0xFF00000000FFFFFF#64 ≠ 0x1200000000000000#64)
      ∧ (fieldOp 0x1300000000000001#64 = 0x13#8
        ∧ 0x1300000000000001#64 &&& 0xFFFFFFFFFFFFFFFF#64 ≠ 0x1300000000000000#64)
      ∧ (fieldOp 0x1400000003000001#64 = 0x14#8
        ∧ 0x1400000003000001#64 &&& 0xFF00000000FFFFFF#64 ≠ 0x1400000000000000#64)
      ∧ (fieldOp 0x200230A205000000#64 = 0x20#8
        ∧ 0x200230A205000000#64 &&& 0xFFFE000000FFFFFF#64 ≠ 0x2000000000000000#64)
      ∧ fieldOp 0x3000000000000001#64 = 0x30#8 := by decide

theorem witness_StepRunsTheDecodedCommand :
    (withHost (bound s8 0) [.command 0x1000000000000020#64]).host = .command 0x1000000000000020#64 :: []
      ∧ decode 0x1000000000000020#64 = .ok (.read 32#7)
      ∧ decodeTableWord 64 0x1000000000000020 = some (.read 32#7) := ⟨rfl, rfl, by decide⟩

theorem witness_HostStoresChangeOneByte :
    (bound s8 0).host = [] ∧ Memory.wf (withHost (bound s8 0) [.store 7#29 0#8]).mem
      ∧ (withHost (bound s8 0) [.store 7#29 0#8]).host = .store 7#29 0#8 :: [] := by decide

/-- A command that succeeds, a command that faults, and each other act of the host. -/
theorem witness_EveryCommandGetsOneResponse :
    seen (step (withHost (bound s8 0) [.command 0x1300000000000000#64])) = saw .ok 0 true 8 0 0xFFFF
      ∧ seen (step (withHost (bound s8 0) [.command 0#64])) = saw .eIllegal 0 true 8 0 0xFFFF
      ∧ seen (step (withHost (bound s8 0) [.reset])) = some ([], Regs.reset)
      ∧ (∃ t, step (withHost (bound s8 0) [.resetDuring 0#64]) = .next t)
      ∧ ∃ t, step (withHost (bound s8 0) [.store 0#29 0#8]) = .next t :=
  ⟨by decide, by decide, by decide, ⟨_, rfl⟩, ⟨_, rfl⟩⟩

theorem witness_IllegalExactlyWhenUndecodable :
    (∀ r ∈ opRows, 0x1300000000000001#64 &&& r.mask ≠ r.pattern)
      ∧ (¬ ∀ r ∈ opRows, 0x1300000000000000#64 &&& r.mask ≠ r.pattern)
      ∧ (withHost State.reset [.command 0x1300000000000001#64]).host = .command 0x1300000000000001#64 :: [] := by
  decide

theorem witness_NullExactlyWhileUnbound :
    (bound [] 9).regs.len = 0#29 ∧ (bound [] 9).regs.bound = true
      ∧ needsSlice (.read 8#7) = true ∧ State.reset.regs.bound = false := by decide

/-- A case of `E_RANGE` of each kind, at the boundary, and its neighbour that is none. -/
theorem witness_RangeExactlyInItsCases :
    rangeFaultCase (.bind 0x20000000#32) State.reset ∧ ¬ rangeFaultCase (.bind 0x1FFFFFFF#32) State.reset
      ∧ rangeFaultCase (.read 0#7) (bound s8 0) ∧ rangeFaultCase (.read 65#7) (bound s8 0)
      ∧ rangeFaultCase (.read 1#7) (bound [] 4294967295) ∧ ¬ rangeFaultCase (.read 1#7) (bound [] 4294967294)
      ∧ rangeFaultCase (.peek 65#7) (bound s8 0) ∧ ¬ rangeFaultCase (.peek 64#7) (bound [] 4294967295)
      ∧ rangeFaultCase (.skip 1#32) (bound [] 4294967295) ∧ ¬ rangeFaultCase (.skip 0#32) (bound [] 4294967295) := by
  unfold rangeFaultCase; decide
theorem witness_RangeExactlyInItsCases_varf :
    rangeFaultCase (.varf 0#6 0#6 0#6 33#6 true) (bound s8 0)
      ∧ rangeFaultCase (.varf 0#6 2#6 4#6 5#6 true) (bound [] 4294967295) :=
  ⟨⟨rfl, .inl (by decide)⟩, ⟨rfl, .inr ⟨0, 1, .inl (by decide), by decide⟩⟩⟩

theorem witness_BackwardExactlyOfAnEarlierTarget :
    (bound [] 4294967295).regs.bound = true
      ∧ (4294967294#32).toNat < (bound [] 4294967295).regs.pos.toNat
      ∧ ¬ (4294967295#32).toNat < (bound [] 4294967295).regs.pos.toNat := by decide

/-- One word for each status. -/
theorem witness_StatusIsTheFirstFaultThatApplies :
    firstFault 0#64 State.reset = .eIllegal ∧ firstFault 0x1000000000000000#64 State.reset = .eNull
      ∧ firstFault 0x1000000000000000#64 (bound s8 40) = .eRange
      ∧ firstFault 0x1200000001000000#64 (bound [] 4294967295) = .eRange
      ∧ firstFault 0x1400000027000000#64 (bound s8 40) = .eBackward
      ∧ firstFault 0x1400000028000000#64 (bound s8 40) = .ok
      ∧ (withHost State.reset [.command 0#64]).host = .command 0#64 :: [] := by decide

theorem witness_FaultsLeaveNoTrace :
    seen (step (withHost (bound s8 40) [.command 0x1400000027000000#64])) = saw .eBackward 0 true 8 40 0xFFFF
      ∧ Status.eBackward ≠ .ok ∧ sliceKept (bound s8 40) := by decide

/-- A READ, a SKIP and an ALIGN past the end, and a window with a residual. -/
theorem witness_OverrunAndMismatchAreNoFaults :
    (bound s8 64).regs.bound = true ∧ 1 ≤ (64#7).toNat ∧ (64#7).toNat ≤ 64
      ∧ (bound s8 64).regs.pos.toNat + (64#7).toNat ≤ 2 ^ 32 - 1
      ∧ 8 * (bound s8 64).regs.len.toNat ≤ (bound s8 64).regs.pos.toNat
      ∧ 8 * (bound s8 64).regs.len.toNat < (bound s8 64).regs.pos.toNat + (1#32).toNat
      ∧ (bound s8 64).regs.pos.toNat ≤ (65#32).toNat ∧ 8 * (bound s8 64).regs.len.toNat < (65#32).toNat
      ∧ crcWindow (bound k5 0) (0#32).toNat (9#24).toNat ≠ 0#16 := by decide

theorem witness_BindGivesTheSliceAtItsFirstBit :
    (0x1FFFFFFF#32).toNat ≤ 2 ^ 29 - 1 ∧ 2 ^ 29 - 1 < (0x20000000#32).toNat ∧ (0#32).toNat ≤ 2 ^ 29 - 1 := by decide

theorem witness_UnbindReleasesTheSlice : State.reset.Inv ∧ State.reset.regs.bound = false := by decide

/-- Counts 1 and 64 up to the last position; the counts and the position refused. -/
theorem witness_ReadAnswersTheNextBits :
    (bound [] 4294967294).regs.bound = true ∧ 1 ≤ (1#7).toNat ∧ (64#7).toNat ≤ 64
      ∧ (bound [] 4294967294).regs.pos.toNat + (1#7).toNat ≤ 2 ^ 32 - 1
      ∧ (bound s8 0).regs.pos.toNat + (64#7).toNat ≤ 2 ^ 32 - 1
      ∧ State.reset.regs.bound = false ∧ (0#7).toNat < 1 ∧ 64 < (65#7).toNat
      ∧ 2 ^ 32 - 1 < (bound [] 4294967294).regs.pos.toNat + (2#7).toNat := by decide

theorem witness_PeekAnswersWithoutMoving :
    (bound [] 4294967295).regs.bound = true ∧ 1 ≤ (1#7).toNat ∧ (1#7).toNat ≤ 64 ∧ (64#7).toNat ≤ 64
      ∧ State.reset.regs.bound = false ∧ (0#7).toNat < 1 ∧ 64 < (65#7).toNat := by decide

theorem witness_SkipAdvancesByItsCount :
    (bound [] 4294967295).regs.bound = true
      ∧ (bound [] 4294967295).regs.pos.toNat + (0#32).toNat ≤ 2 ^ 32 - 1
      ∧ (bound s8 0).regs.pos.toNat + (4294967295#32).toNat ≤ 2 ^ 32 - 1
      ∧ State.reset.regs.bound = false
      ∧ 2 ^ 32 - 1 < (bound [] 4294967295).regs.pos.toNat + (1#32).toNat := by decide

/-- At the end of the slice (no overrun) and one past it (overrun). -/
theorem witness_PosAnswersTheCursor :
    (bound s8 64).regs.bound = true ∧ overrun (bound s8 64) = false ∧ overrun (bound s8 65) = true
      ∧ State.reset.regs.bound = false := by decide

theorem witness_AlignMovesForwardToItsTarget :
    (bound s8 40).regs.bound = true ∧ (bound s8 40).regs.pos.toNat ≤ (40#32).toNat
      ∧ (bound s8 40).regs.pos.toNat ≤ (4294967295#32).toNat ∧ (39#32).toNat < (bound s8 40).regs.pos.toNat
      ∧ State.reset.regs.bound = false := by decide

/-- Each index; a width of 0 up to the last position, and of 1 past it; an illegal table. -/
theorem witness_VarfDecodesThePrefixCode :
    ((bound [] 4294967294).regs.bound = true ∧ widthsAtMost32 0#6 2#6 4#6 32#6
        ∧ prefixRow (bits (bound [] 4294967294) 0 4294967294 3) 0 1
        ∧ (bound [] 4294967294).regs.pos.toNat + 1 + varfWidth 0#6 2#6 4#6 32#6 0 ≤ 2 ^ 32 - 1)
      ∧ 2 ^ 32 - 1 < (bound [] 4294967294).regs.pos.toNat + 1 + varfWidth 1#6 2#6 4#6 32#6 0
      ∧ ¬ widthsAtMost32 33#6 0#6 0#6 0#6 ∧ State.reset.regs.bound = false := by
  unfold prefixRow; decide
theorem witness_VarfDecodesThePrefixCode_indices :
    prefixRow (bits (bound [0x80#8] 0) 0 0 3) 1 2 ∧ prefixRow (bits (bound [0xC0#8] 0) 0 0 3) 2 3
      ∧ prefixRow (bits (bound [0xE0#8] 0) 0 0 3) 3 3 := by
  unfold prefixRow; decide

theorem witness_CrcchkAnswersTheResidual :
    (bound k8 0).regs.bound = true ∧ State.reset.regs.bound = false ∧ fieldOp 0x3000000000000009#64 = 0x30#8
      ∧ crcWindow (bound k8 0) 0 9 = 0#16 ∧ crcWindow (bound k5 0) 0 9 = 0x29B1#16 := by decide

theorem witness_CommandsKeepWhatTheyDoNotWrite :
    (∃ t, exec (.peek 3#7) (bound s8 0) = .next t) ∧ rebinds (.peek 3#7) = false
      ∧ (∃ n, Instr.peek 3#7 = .peek n) ∧ ∀ start nbytes, Instr.peek 3#7 ≠ .crcchk start nbytes :=
  ⟨⟨_, rfl⟩, rfl, ⟨_, rfl⟩, by intro _ _ h; cases h⟩

theorem witness_BlockNeverWritesMemory :
    (∃ t, step (withHost (bound s8 0) [.command 0x1000000000000020#64]) = .next t)
      ∧ ∀ a b, HostEvent.command 0x1000000000000020#64 ≠ .store a b :=
  ⟨⟨_, rfl⟩, by intro _ _ h; cases h⟩

/-- Memory that differs at the first address past the slice. -/
theorem witness_CommandsSeeOnlyTheBoundSlice :
    (bound s8 0).regs.bound = true
      ∧ (∀ a, a < 8 → memGet (cells 0 (s8 ++ [5#8])) a = memGet (bound s8 0).mem a)
      ∧ (bound s8 0).regs.len.toNat = 8 ∧ cells 0 (s8 ++ [5#8]) ≠ (bound s8 0).mem := by decide

theorem witness_StreamlessCommandsIgnoreMemory :
    readsStream (.bind 8#32) = false ∧ readsStream .unbind = false ∧ readsStream (.skip 1#32) = false
      ∧ readsStream .pos = false ∧ readsStream (.align 1#32) = false := by decide

/-- READ 8 at bit 4 reads bytes 0 and 1: memory that differs at byte 2. -/
theorem witness_ReadsTouchOnlyTheirBytes :
    1 ≤ (8#7).toNat ∧ (bound s8 4).regs.pos.toNat / 8 = 0
      ∧ ((bound s8 4).regs.pos.toNat + (8#7).toNat - 1) / 8 = 1
      ∧ (∀ a, a ≤ 1 → memGet (cells 0 [0x40#8, 0x41#8, 0xEE#8]) a = memGet (bound s8 4).mem a) := by decide

/-- A byte of the bound slice changed; the last bit of it and a bit of another byte; a BIND of the greatest length. -/
theorem witness_ChangedSliceReadsOldOrNew :
    Memory.wf (withHost (bound k8 0) [.store 8#29 0#8]).mem
      ∧ (withHost (bound k8 0) [.store 8#29 0#8]).host = .store 8#29 0#8 :: []
      ∧ 71 < 8 * (bound k8 0).regs.len.toNat ∧ 71 / 8 = (8#29).toNat ∧ 63 / 8 ≠ (8#29).toNat
      ∧ (0x1FFFFFFF#32).toNat ≤ 2 ^ 29 - 1 := by decide
/-- A slice one byte of which was changed twice under its binding, and a third store at the same address. -/
theorem witness_ChangedSliceReadsOldOrNew_again :
    let s : State := { withHost (bound k8 0) [.store 8#29 1#8] with superseded := [(8, 0x22#8), (8, 0x33#8)] }
    olderBytes s 8 = [0x22#8, 0x33#8] ∧ Memory.wf s.mem ∧ s.host = .store 8#29 1#8 :: []
      ∧ 64 / 8 = (8#29).toNat ∧ 64 < 8 * s.regs.len.toNat := by decide
theorem witness_ChangedSliceReadsOldOrNew_ends :
    (∃ t, exec (.bind 0x1FFFFFFF#32) (bound k8 0) = .next t) ∧ (∃ t, exec .unbind (bound k8 0) = .next t)
      ∧ ∃ t, step (withHost (bound k8 0) [.reset]) = .next t := ⟨⟨_, rfl⟩, ⟨_, rfl⟩, ⟨_, rfl⟩⟩

theorem witness_InstancesAreIndependent :
    (Platform.mk [bound s8 0, bound k8 3]).instances[1]? = some (bound k8 3) := rfl

/-- The longest pair of counts, and a pair that ends at the last position. -/
theorem witness_ReadsCompose :
    sliceKept (bound s8 0) ∧ (bound s8 0).regs.bound = true ∧ 1 ≤ (1#7).toNat ∧ 1 ≤ (63#7).toNat
      ∧ (1#7).toNat + (63#7).toNat ≤ 64 ∧ (bound s8 0).regs.pos.toNat + (1#7).toNat + (63#7).toNat ≤ 2 ^ 32 - 1
      ∧ (bound [] 4294967293).regs.pos.toNat + (1#7).toNat + (1#7).toNat ≤ 2 ^ 32 - 1 := by decide

theorem witness_PeekThenReadAgree :
    sliceKept (bound s8 0) ∧ (bound s8 0).regs.bound = true ∧ 1 ≤ (64#7).toNat ∧ (64#7).toNat ≤ 64
      ∧ (bound s8 0).regs.pos.toNat + (64#7).toNat ≤ 2 ^ 32 - 1 := by decide

/-- An ALIGN to the cursor itself and to the last position. -/
theorem witness_ForwardAlignIsASkip :
    (bound s8 40).regs.bound = true ∧ (bound s8 40).regs.pos.toNat ≤ (40#32).toNat
      ∧ (bound s8 40).regs.pos.toNat ≤ (4294967295#32).toNat := by decide

theorem witness_CursorNeverGoesBack :
    (∃ t, step (withHost (bound s8 0) [.command 0x1000000000000020#64]) = .next t)
      ∧ (∀ w rest, (withHost (bound s8 0) [.command 0x1000000000000020#64]).host = .command w :: rest →
          ∀ i, decode w = .ok i → rebinds i = false)
      ∧ (∀ rest, (withHost (bound s8 0) [.command 0x1000000000000020#64]).host ≠ .reset :: rest)
      ∧ ∀ w rest, (withHost (bound s8 0) [.command 0x1000000000000020#64]).host ≠ .resetDuring w :: rest := by
  refine ⟨⟨_, rfl⟩, ?_, nofun, nofun⟩
  intro w rest h i hi
  cases h
  cases (show decode 0x1000000000000020#64 = .ok (.read 32#7) from rfl).symm.trans hi
  rfl

/-- READ 32 then READ 32 over the eight bytes: inside after one, at the very end after both. -/
theorem witness_EndTestCoversTheWholeRun :
    (∀ e ∈ (withHost (bound s8 0) (List.replicate 2 (.command 0x1000000000000020#64))).host,
        ∃ w, e = .command w ∧ fieldOp w ≠ 0x01#8 ∧ fieldOp w ≠ 0x02#8)
      ∧ (∃ t, Host.Core.run Sys2Proof.core 1
          (withHost (bound s8 0) (List.replicate 2 (.command 0x1000000000000020#64))) = .next t)
      ∧ ∃ u : State, Host.Core.run Sys2Proof.core (1 + 1)
          (withHost (bound s8 0) (List.replicate 2 (.command 0x1000000000000020#64))) = .next u
        ∧ u.regs.pos.toNat ≤ 8 * u.regs.len.toNat := by
  refine ⟨?_, ⟨_, rfl⟩, ⟨_, rfl, by decide⟩⟩
  intro e he
  cases List.eq_of_mem_replicate he
  exact ⟨_, rfl, by decide, by decide⟩

/-- Program P4 (index 1) and a table whose index 0 has width 0 (V9). -/
theorem witness_VarfIsPeekSkipRead :
    sliceKept (bound [0x80#8, 0xC0#8] 0) ∧ (bound [0x80#8, 0xC0#8] 0).regs.bound = true
      ∧ widthsAtMost32 2#6 4#6 6#6 8#6 ∧ prefixRow (bits (bound [0x80#8, 0xC0#8] 0) 0 0 3) 1 2
      ∧ (bound [0x80#8, 0xC0#8] 0).regs.pos.toNat + 2 + varfWidth 2#6 4#6 6#6 8#6 1 ≤ 2 ^ 32 - 1
      ∧ varfWidth 2#6 4#6 6#6 8#6 1 > 0 ∧ prefixRow (bits (bound [0#8] 0) 0 0 3) 0 1
      ∧ varfWidth 0#6 2#6 4#6 5#6 0 = 0 := by
  unfold prefixRow; decide

/-- The greatest value of index 0 and the least of index 1 (V2, V3), and the greatest of all (V8). -/
theorem witness_VarfInvertsItsEncoder :
    ∀ p ∈ [(([0x7C#8] : List Byte), 31), ([0x80#8, 0x00#8], 32), ([0xFF#8, 0xFE#8], 5407)],
      sliceKept (bound p.1 0) ∧ (bound p.1 0).regs.bound = true ∧ widthsAtMost32 5#6 8#6 10#6 12#6
        ∧ p.2 < varfBase (varfWidth 5#6 8#6 10#6 12#6) 4
        ∧ (bound p.1 0).regs.pos.toNat + varfCodeLength (varfWidth 5#6 8#6 10#6 12#6) p.2 ≤ 2 ^ 32 - 1
        ∧ bits (bound p.1 0) 0 0 (varfCodeLength (varfWidth 5#6 8#6 10#6 12#6) p.2)
            = varfCode (varfWidth 5#6 8#6 10#6 12#6) p.2 := by decide

theorem witness_VarfRangesAreDisjoint :
    (bound [0x80#8, 0x00#8] 0).regs.bound = true ∧ prefixRow (bits (bound [0x80#8, 0x00#8] 0) 0 0 3) 1 2
      ∧ seen (exec (.varf 5#6 8#6 10#6 12#6 true) (bound [0x80#8, 0x00#8] 0)) = saw .ok 32 true 2 10 0xFFFF
      ∧ varfBase (varfWidth 5#6 8#6 10#6 12#6) 1 ≤ 32 ∧ 32 < varfBase (varfWidth 5#6 8#6 10#6 12#6) 2 := by
  unfold prefixRow; decide

/-- At the end of an empty slice, and where the new position is the last one. -/
theorem witness_VarfPastTheEndAnswersZero :
    (bound [] 0).regs.bound = true ∧ widthsAtMost32 32#6 0#6 0#6 0#6
      ∧ 8 * (bound [] 0).regs.len.toNat ≤ (bound [] 0).regs.pos.toNat
      ∧ (bound [] 4294967262).regs.pos.toNat + 1 + (32#6).toNat ≤ 2 ^ 32 - 1 := by decide

/-- Two slices and their exclusive-or, over a window of one byte. -/
theorem witness_CrcIsAffineInTheData :
    ∀ p, p < 8 → bit (bound [0x51#8] 0) 0 p = (bit (bound [0x40#8] 0) 0 p + bit (bound [0x11#8] 0) 0 p) % 2 := by
  decide

/-- Vectors K7 and K8: the seven bytes and their residual. -/
theorem witness_AppendedCrcMakesTheWindowGood :
    (bound k8 0).regs.bound = true ∧ 7 + 2 < 2 ^ 24
      ∧ bits (bound k8 0) 0 (0 + 8 * 7) 16 = (crcWindow (bound k8 0) 0 7).toNat := by decide

/-- Vector K12, bit 38. -/
theorem witness_SingleBitErrorsAreDetected :
    38 < 0 + 8 * 9 ∧ crcWindow (bound k8 0) 0 9 = 0#16
      ∧ ∀ p, p < 72 →
        bit (bound [0x40#8, 0x41#8, 0x1B#8, 0xF2#8, 0x20#8, 0x00#8, 0x00#8, 0x71#8, 0xB4#8] 0) 0 p
          = if p = 38 then 1 - bit (bound k8 0) 0 p else bit (bound k8 0) 0 p := by decide

/-- Vector K23: the good window and three bytes of zero-fill. -/
theorem witness_TrailingZerosKeepAWindowGood :
    crcWindow (bound k8 0) 0 9 = 0#16 ∧ ∀ k, k < 24 → bit (bound k8 0) 0 (72 + k) = 0 := by decide

/-- Vector K20: nine bytes, and the same lengthened by two zero bytes. -/
theorem witness_WindowsPastTheEndAreZeroFilled :
    sliceKept (bound k5 0) ∧ sliceKept (bound (k5 ++ [0#8, 0#8]) 0)
      ∧ (bound k5 0).regs.len.toNat = 9 ∧ (bound (k5 ++ [0#8, 0#8]) 0).regs.len.toNat = 11
      ∧ (∀ a, a < 9 → memGet (bound (k5 ++ [0#8, 0#8]) 0).mem a = memGet (bound k5 0).mem a)
      ∧ memGet (bound (k5 ++ [0#8, 0#8]) 0).mem 9 = 0#8 ∧ memGet (bound (k5 ++ [0#8, 0#8]) 0).mem 10 = 0#8 := by
  decide

/-- A bound slice with a byte in doubt, and a step from it. -/
theorem witness_StepsKeepTheUnboundRegistersZero :
    State.Inv { withHost (bound s8 0) [.command 0x0200000000000000#64] with superseded := [(7, 0xEE#8)] }
      ∧ ∃ t, step { withHost (bound s8 0) [.command 0x0200000000000000#64] with superseded := [(7, 0xEE#8)] }
          = .next t := ⟨by decide, ⟨_, rfl⟩⟩

end Sys2Proof.Tests
end

