-- ==== Sys2Proof/Proofs/Reset.lean ====
section
/-! Reset (spec/10_state.md R23, spec/70_reset_and_hazards.md R180): the register values, at the start and after a
reset event. -/

namespace Sys2Proof.Machine

/-- 10_state.md R23 in numbers. -/
theorem regs_reset_eq : Regs.reset = ⟨false, 0#29, 0#32, 0xFFFF#16⟩ := rfl

/-- Settles O1: each reset event steps to `applyReset` or `cutOff`, whose registers are `Regs.reset`. -/
theorem resetLeavesTheStatedRegisters : Obligations.ResetLeavesTheStatedRegisters := by
  refine ⟨regs_reset_eq, fun s w rest => ⟨fun hreset => ?_, fun hduring => ?_⟩⟩
  · exact ⟨applyReset { s with host := rest }, step_reset hreset, by simp [regs_reset_eq]⟩
  · exact ⟨cutOff w { s with host := rest }, step_resetDuring hduring, by simp [regs_reset_eq]⟩

end Sys2Proof.Machine
end

section
/-! The slice and what the block does to memory (spec/20_memory.md R31, R32, R36): one bit of the stream, a run of bits
as a sum, and the frame of memory. -/

namespace Sys2Proof.Machine

/-- Settles O2: a kept slice has no older bytes, so `MemRead` gives the byte in place. -/
theorem bitTakesMostSignificantFirst : Obligations.BitTakesMostSignificantFirst := by
  intro s look p hkept
  rw [bit, memRead_kept hkept, Nat.and_one_is_mod]

/-- Settles O3, by induction on the count: one bit more doubles the weight of each bit before it. -/
theorem bitsIsTheBigEndianSum : Obligations.BitsIsTheBigEndianSum := by
  intro s look p n
  induction n with
  | zero => simp
  | succ n ih =>
    have hdouble : ∀ i ∈ Finset.range n,
        bit s look (p + i) * 2 ^ (n - 1 - i) * 2 = bit s look (p + i) * 2 ^ (n + 1 - 1 - i) := by
      intro i hi
      have hlt := Finset.mem_range.mp hi
      rw [Nat.mul_assoc, ← pow_succ, show n - 1 - i + 1 = n + 1 - 1 - i by omega]
    rw [bits_succ, ih, Finset.sum_mul, Finset.sum_congr rfl hdouble, Finset.sum_range_succ]
    simp

/-- However a command ends, it has stored nothing (20_memory.md R36). -/
theorem Ends.mem_eq {i : Instr} {s t : State} (h : Ends i s t) : t.mem = s.mem := by
  rcases h with ⟨f, -, -, rfl⟩ | hcompleted
  · exact raise_mem f s
  · exact hcompleted.mem

/-- Every act of the host but a store of its own leaves memory as it is (20_memory.md R36). -/
theorem step_mem_of_not_store {s t : State} {e : HostEvent} {rest : List HostEvent} (hhost : s.host = e :: rest)
    (hnostore : ∀ a b, e ≠ .store a b) (hstep : step s = .next t) : t.mem = s.mem := by
  cases e with
  | command w =>
    rw [step_command hhost] at hstep
    split at hstep
    next i hdecode => exact (exec_ends hstep).mem_eq
    next why hdecode => cases hstep; rfl
  | reset =>
    rw [step_reset hhost] at hstep
    cases hstep
    rfl
  | resetDuring w =>
    rw [step_resetDuring hhost] at hstep
    cases hstep
    rfl
  | store a b => exact absurd rfl (hnostore a b)

/-- Settles O33: memory is the same list of cells, so every address reads the same. -/
theorem blockNeverWritesMemory : Obligations.BlockNeverWritesMemory := by
  intro s t e rest hhost hnostore hstep a
  rw [step_mem_of_not_store hhost hnostore hstep]

end Sys2Proof.Machine
end

section
/-! Decoding and illegal words (spec/30_encoding.md R52, R53, R56, R57). One statement says what the decoder does with a
word, `decode_eq_ok_iff`: the command's row is met and the operands are the word's fields. -/

namespace Sys2Proof

open Laws.EncodedRow (rowOf)

/-! ### A row's test on a run of bits -/

/-- Where the mask is all ones, a word that passes a row's test has the bits of the row's pattern. -/
theorem extractLsb'_eq_of_and_eq {w mask pattern : CmdWord} (h : w &&& mask = pattern) {start len : Nat}
    (hones : mask.extractLsb' start len = BitVec.allOnes len) :
    w.extractLsb' start len = pattern.extractLsb' start len := by
  rw [← h, BitVec.extractLsb'_and, hones, BitVec.and_allOnes]

/-- A run of bits a format marks "0" (30_encoding.md R52): the mask is all ones there and the pattern is zero. -/
theorem div_mod_eq_zero_of_match (r : OpRow) {w : CmdWord} (h : w &&& r.mask = r.pattern) (start len : Nat)
    (hones : r.mask.extractLsb' start len = BitVec.allOnes len) (hzero : r.pattern.extractLsb' start len = 0#len) :
    w.toNat / 2 ^ start % 2 ^ len = 0 := by
  have hbits := congrArg BitVec.toNat ((extractLsb'_eq_of_and_eq h hones).trans hzero)
  simpa [BitVec.extractLsb'_toNat, Nat.shiftRight_eq_div_pow] using hbits

/-- A run of zero bits at the low end of the word. -/
theorem mod_eq_zero_of_match (r : OpRow) {w : CmdWord} (h : w &&& r.mask = r.pattern) (len : Nat)
    (hones : r.mask.extractLsb' 0 len = BitVec.allOnes len) (hzero : r.pattern.extractLsb' 0 len = 0#len) :
    w.toNat % 2 ^ len = 0 := by
  simpa using div_mod_eq_zero_of_match r h 0 len hones hzero

theorem matchRow_eq_error {r : OpRow} {w : CmdWord} (h : w &&& r.mask ≠ r.pattern) (i : Instr) :
    matchRow r w i = .error (.reservedBitSet r.mnemonic) :=
  if_neg h

/-! ### Rows and commands -/

theorem rowOf_mem_opRows (i : Instr) : rowOf i ∈ opRows := by
  cases i <;> simp [rowOf, opRows]

theorem exists_rowOf_eq {r : OpRow} (hr : r ∈ opRows) : ∃ i, rowOf i = r := by
  simp only [opRows, List.mem_cons, List.not_mem_nil, or_false] at hr
  rcases hr with rfl | rfl | rfl | rfl | rfl | rfl | rfl | rfl | rfl
  · exact ⟨.bind 0#32, rfl⟩
  · exact ⟨.unbind, rfl⟩
  · exact ⟨.read 0#7, rfl⟩
  · exact ⟨.peek 0#7, rfl⟩
  · exact ⟨.skip 0#32, rfl⟩
  · exact ⟨.pos, rfl⟩
  · exact ⟨.align 0#32, rfl⟩
  · exact ⟨.varf 0#6 0#6 0#6 0#6 false, rfl⟩
  · exact ⟨.crcchk 0#32 0#24, rfl⟩

/-- The `op` of a command (30_encoding.md R53). -/
def opOf : Instr → BitVec 8
  | .bind _ => 0x01#8
  | .unbind => 0x02#8
  | .read _ => 0x10#8
  | .peek _ => 0x11#8
  | .skip _ => 0x12#8
  | .pos => 0x13#8
  | .align _ => 0x14#8
  | .varf _ _ _ _ _ => 0x20#8
  | .crcchk _ _ => 0x30#8

/-- Every row fixes the whole of `op` (30_encoding.md R53). -/
theorem fieldOp_eq_opOf_of_match {w : CmdWord} {i : Instr} (h : w &&& (rowOf i).mask = (rowOf i).pattern) :
    fieldOp w = opOf i := by
  have hmask : fieldOp (rowOf i).mask = BitVec.allOnes 8 := by cases i <;> (simp only [rowOf]; decide)
  have hpattern : fieldOp (rowOf i).pattern = opOf i := by cases i <;> (simp only [rowOf, opOf]; decide)
  exact (extractLsb'_eq_of_and_eq h hmask).trans hpattern

/-- The command of the same mnemonic with its operands read from the word's fields (30_encoding.md R52). -/
def readOperands (w : CmdWord) : Instr → Instr
  | .bind _ => .bind (fieldA w)
  | .unbind => .unbind
  | .read _ => .read (fieldN w)
  | .peek _ => .peek (fieldN w)
  | .skip _ => .skip (fieldA w)
  | .pos => .pos
  | .align _ => .align (fieldA w)
  | .varf _ _ _ _ _ => .varf (fieldW 0 w) (fieldW 1 w) (fieldW 2 w) (fieldW 3 w) (fieldAdd w)
  | .crcchk _ _ => .crcchk (fieldA w) (fieldB w)

@[simp] theorem rowOf_readOperands (w : CmdWord) (i : Instr) : rowOf (readOperands w i) = rowOf i := by
  cases i <;> rfl

@[simp] theorem readOperands_readOperands (w : CmdWord) (i : Instr) :
    readOperands w (readOperands w i) = readOperands w i := by
  cases i <;> rfl

/-! ### What the decoder does -/

/-- An assigned `op`: the word is put to its row's test (30_encoding.md R59). -/
theorem decode_of_fieldOp {w : CmdWord} {i : Instr} (hop : fieldOp w = opOf i) :
    decode w = matchRow (rowOf i) w (readOperands w i) := by
  cases i <;> simp [decode, hop, opOf, rowOf, readOperands]

/-- An `op` of no command (30_encoding.md R57). -/
theorem decode_of_unassigned {w : CmdWord} (hop : ∀ i, fieldOp w ≠ opOf i) :
    decode w = .error (.unassignedOpcode (fieldOp w)) := by
  have hbind : fieldOp w ≠ 0x01#8 := hop (.bind 0#32)
  have hunbind : fieldOp w ≠ 0x02#8 := hop .unbind
  have hread : fieldOp w ≠ 0x10#8 := hop (.read 0#7)
  have hpeek : fieldOp w ≠ 0x11#8 := hop (.peek 0#7)
  have hskip : fieldOp w ≠ 0x12#8 := hop (.skip 0#32)
  have hpos : fieldOp w ≠ 0x13#8 := hop .pos
  have halign : fieldOp w ≠ 0x14#8 := hop (.align 0#32)
  have hvarf : fieldOp w ≠ 0x20#8 := hop (.varf 0#6 0#6 0#6 0#6 false)
  have hcrcchk : fieldOp w ≠ 0x30#8 := hop (.crcchk 0#32 0#24)
  simp only [decode, hbind, hunbind, hread, hpeek, hskip, hpos, halign, hvarf, hcrcchk, if_false]

/-- A word decodes to a command exactly when it passes the command's row and the operands are its fields. -/
theorem decode_eq_ok_iff {w : CmdWord} {i : Instr} :
    decode w = .ok i ↔ w &&& (rowOf i).mask = (rowOf i).pattern ∧ readOperands w i = i := by
  constructor
  · intro hdecode
    by_cases hop : ∃ j, fieldOp w = opOf j
    · obtain ⟨j, hop⟩ := hop
      rw [decode_of_fieldOp hop, matchRow_ok_iff] at hdecode
      obtain ⟨hmatch, rfl⟩ := hdecode
      simpa using hmatch
    · rw [decode_of_unassigned (not_exists.mp hop)] at hdecode
      cases hdecode
  · rintro ⟨hmatch, hoperands⟩
    rw [decode_of_fieldOp (fieldOp_eq_opOf_of_match hmatch), matchRow_ok_iff]
    exact ⟨hmatch, hoperands⟩

/-- On a command's row, the word is that command with the operands of its fields. -/
theorem decode_of_match {w : CmdWord} (i : Instr) (h : w &&& (rowOf i).mask = (rowOf i).pattern) :
    decode w = .ok (readOperands w i) :=
  decode_eq_ok_iff.mpr ⟨by simpa using h, by simp⟩

theorem match_of_decode {w : CmdWord} {i : Instr} (h : decode w = .ok i) :
    w &&& (rowOf i).mask = (rowOf i).pattern :=
  (decode_eq_ok_iff.mp h).1

/-- No command is a word on no row (30_encoding.md R59). -/
theorem decode_error_iff (w : CmdWord) :
    (∃ e, decode w = .error e) ↔ ∀ r ∈ opRows, w &&& r.mask ≠ r.pattern := by
  constructor
  · rintro ⟨e, hdecode⟩ r hr hmatch
    obtain ⟨i, rfl⟩ := exists_rowOf_eq hr
    rw [decode_of_match i hmatch] at hdecode
    cases hdecode
  · intro hnone
    cases hdecode : decode w with
    | error e => exact ⟨e, rfl⟩
    | ok i => exact absurd (match_of_decode hdecode) (hnone _ (rowOf_mem_opRows i))

/-- Settles O7: both directions of each row are `decode_eq_ok_iff` for that row's command. -/
theorem decodeFollowsTheOpcodeMap : Obligations.DecodeFollowsTheOpcodeMap := by
  intro w
  refine ⟨?_, ?_, ?_, ?_, ?_, ?_, ?_, ?_, ?_, decode_error_iff w⟩
  · exact ⟨fun ⟨_, h⟩ => match_of_decode h, fun h => ⟨_, decode_of_match (.bind 0#32) h⟩⟩
  · exact ⟨match_of_decode, decode_of_match .unbind⟩
  · exact ⟨fun ⟨_, h⟩ => match_of_decode h, fun h => ⟨_, decode_of_match (.read 0#7) h⟩⟩
  · exact ⟨fun ⟨_, h⟩ => match_of_decode h, fun h => ⟨_, decode_of_match (.peek 0#7) h⟩⟩
  · exact ⟨fun ⟨_, h⟩ => match_of_decode h, fun h => ⟨_, decode_of_match (.skip 0#32) h⟩⟩
  · exact ⟨match_of_decode, decode_of_match .pos⟩
  · exact ⟨fun ⟨_, h⟩ => match_of_decode h, fun h => ⟨_, decode_of_match (.align 0#32) h⟩⟩
  · exact ⟨fun ⟨_, _, _, _, _, h⟩ => match_of_decode h,
      fun h => ⟨_, _, _, _, _, decode_of_match (.varf 0#6 0#6 0#6 0#6 false) h⟩⟩
  · exact ⟨fun ⟨_, _, h⟩ => match_of_decode h, fun h => ⟨_, _, decode_of_match (.crcchk 0#32 0#24) h⟩⟩

/-! ### The operands in integers -/

theorem toNat_fieldN (w : CmdWord) : (fieldN w).toNat = w.toNat % 2 ^ 7 := by
  simp only [fieldN, BitVec.extractLsb'_toNat, Nat.shiftRight_zero]

theorem toNat_fieldW (i : Nat) (w : CmdWord) : (fieldW i w).toNat = w.toNat / 2 ^ (24 + 6 * i) % 2 ^ 6 := by
  simp only [fieldW, BitVec.extractLsb'_toNat, Nat.shiftRight_eq_div_pow]

theorem fieldAdd_iff (w : CmdWord) : fieldAdd w = true ↔ w.toNat / 2 ^ 48 % 2 = 1 := by
  rw [fieldAdd, BitVec.getLsbD, Nat.testBit_eq_decide_div_mod_eq, decide_eq_true_iff]

/-- Settles O8: the operands are `readOperands` of the word, and the zero runs are read off the row's mask. -/
theorem operandsAreTheFormatFields : Obligations.OperandsAreTheFormatFields := by
  intro w i hdecode
  obtain ⟨hmatch, hoperands⟩ := decode_eq_ok_iff.mp hdecode
  rw [← hoperands]
  cases i with
  | bind len => exact ⟨toNat_fieldA w, mod_eq_zero_of_match rowBind hmatch 24 (by decide) (by decide)⟩
  | unbind => exact mod_eq_zero_of_match rowUnbind hmatch 56 (by decide) (by decide)
  | read n => exact ⟨toNat_fieldN w, div_mod_eq_zero_of_match rowRead hmatch 7 49 (by decide) (by decide)⟩
  | peek n => exact ⟨toNat_fieldN w, div_mod_eq_zero_of_match rowPeek hmatch 7 49 (by decide) (by decide)⟩
  | skip n => exact ⟨toNat_fieldA w, mod_eq_zero_of_match rowSkip hmatch 24 (by decide) (by decide)⟩
  | pos => exact mod_eq_zero_of_match rowPos hmatch 56 (by decide) (by decide)
  | align t => exact ⟨toNat_fieldA w, mod_eq_zero_of_match rowAlign hmatch 24 (by decide) (by decide)⟩
  | varf w0 w1 w2 w3 add =>
    exact ⟨toNat_fieldW 0 w, toNat_fieldW 1 w, toNat_fieldW 2 w, toNat_fieldW 3 w, fieldAdd_iff w,
      div_mod_eq_zero_of_match rowVarf hmatch 49 7 (by decide) (by decide),
      mod_eq_zero_of_match rowVarf hmatch 24 (by decide) (by decide)⟩
  | crcchk start nbytes => exact ⟨toNat_fieldA w, toNat_fieldB w⟩

end Sys2Proof

namespace Sys2Proof.Machine

open Laws.EncodedRow (rowOf)

/-! ### Illegal words -/

/-- Whatever is wrong with a word, the step answers `E_ILLEGAL` and does nothing else (60_exceptions.md R162). -/
theorem step_of_decode_error {s : State} {w : CmdWord} {rest : List HostEvent} {e : DecodeError}
    (hhost : s.host = .command w :: rest) (hdecode : decode w = .error e) :
    step s = .next (faulted { s with host := rest } .eIllegal) := by
  rw [step_command hhost, hdecode]
  rfl

/-- Settles O9: none of these numbers is the `op` of a row, so the word does not decode. -/
theorem unassignedOpcodesAnswerIllegal : Obligations.UnassignedOpcodesAnswerIllegal := by
  intro s w rest op hhost hop hunassigned
  refine step_of_decode_error hhost (decode_of_unassigned fun i heq => ?_)
  have hassigned : (opOf i).toNat ∈ [0x01, 0x02, 0x10, 0x11, 0x12, 0x13, 0x14, 0x20, 0x30] := by
    cases i <;> simp [opOf]
  rw [← heq, toNat_fieldOp, ← hop] at hassigned
  simp only [List.mem_cons, List.not_mem_nil, or_false] at hassigned
  omega

/-- An assigned opcode whose word fails its row's test (30_encoding.md R56). -/
theorem reservedBitsFault_rowOf (i : Instr) : reservedBitsFault (opOf i) (rowOf i).pattern (rowOf i).mask := by
  intro s w rest hhost hop hfails
  exact step_of_decode_error hhost ((decode_of_fieldOp hop).trans (matchRow_eq_error hfails _))

/-- Format C has no reserved bit: every word of `op` 0x30 is an encoded CRCCHK (30_encoding.md R52). -/
theorem crcchk_match_of_fieldOp {w : CmdWord} (hop : fieldOp w = 0x30#8) :
    w &&& rowCrcchk.mask = rowCrcchk.pattern := by
  have hencode : encode (.crcchk (fieldA w) (fieldB w)) = w := by
    rw [encode, ← hop, packWord_fields]
  have hrow := Laws.EncodedRow.crcchk (fieldA w) (fieldB w)
  rwa [Laws.EncodedRow.Statement, hencode] at hrow

/-- Settles O10: `reservedBitsFault_rowOf` at each of the eight commands whose format has a reserved bit. -/
theorem reservedBitsAnswerIllegal : Obligations.ReservedBitsAnswerIllegal :=
  ⟨reservedBitsFault_rowOf (.bind 0#32), reservedBitsFault_rowOf .unbind, reservedBitsFault_rowOf (.read 0#7),
    reservedBitsFault_rowOf (.peek 0#7), reservedBitsFault_rowOf (.skip 0#32), reservedBitsFault_rowOf .pos,
    reservedBitsFault_rowOf (.align 0#32), reservedBitsFault_rowOf (.varf 0#6 0#6 0#6 0#6 false),
    fun _ => crcchk_match_of_fieldOp⟩

end Sys2Proof.Machine
end

section
/-! The commands of the bit reader one by one (spec/40_bitreader.md R71 to R78): the value a run of bits answers, what
each check does when its outcome is known, what each command does past its checks, and then the seven commands. -/

namespace Sys2Proof.Machine

/-! ### What a check does when its outcome is known -/

theorem needSlice_of_bound {s : State} (hbound : s.regs.bound = true) (k : State) : needSlice s k = k :=
  if_pos hbound

theorem needSlice_of_unbound {s : State} (hunbound : s.regs.bound = false) (k : State) :
    needSlice s k = faulted s .eNull :=
  if_neg (by simp [hunbound])

theorem needRange_of_legal {legal : Bool} (hlegal : legal = true) (s k : State) : needRange legal s k = k :=
  if_pos hlegal

theorem needRange_of_illegal {legal : Bool} (hillegal : ¬ legal = true) (s k : State) :
    needRange legal s k = faulted s .eRange :=
  if_neg hillegal

/-- The cursor moves as far as the last position, `POS_MAX` (10_state.md R13). -/
theorem advance_of_le {s : State} {n : Nat} (hfits : s.regs.pos.toNat + n ≤ 2 ^ 32 - 1) (v : Value) :
    advance n v s = answered s { s.regs with pos := BitVec.ofNat 32 (s.regs.pos.toNat + n) } v :=
  if_neg (Nat.not_lt.mpr hfits)

/-- Past the last position the cursor does not wrap (60_exceptions.md R164c). -/
theorem advance_of_gt {s : State} {n : Nat} (hpast : 2 ^ 32 - 1 < s.regs.pos.toNat + n) (v : Value) :
    advance n v s = faulted s .eRange :=
  if_pos hpast

/-! ### What a command does past its checks -/

/-- Every command that needs a slice tests for it before anything else (60_exceptions.md R163, R167). -/
theorem exec_eq_needSlice {i : Instr} (hneeds : needsSlice i = true) (s : State) :
    ∃ k, exec i s = .next (needSlice s k) := by
  cases i with
  | bind len => cases hneeds
  | unbind => cases hneeds
  | read n => exact ⟨_, rfl⟩
  | peek n => exact ⟨_, rfl⟩
  | skip n => exact ⟨_, rfl⟩
  | pos => exact ⟨_, rfl⟩
  | align t => exact ⟨_, rfl⟩
  | varf w0 w1 w2 w3 add => exact ⟨_, rfl⟩
  | crcchk start nbytes => exact ⟨_, rfl⟩

theorem exec_of_unbound {i : Instr} {s : State} (hneeds : needsSlice i = true) (hunbound : s.regs.bound = false) :
    exec i s = .next (faulted s .eNull) := by
  obtain ⟨k, hexec⟩ := exec_eq_needSlice hneeds s
  rw [hexec, needSlice_of_unbound hunbound]

theorem exec_bind_of_le {len : BitVec 32} (hlen : len.toNat ≤ 2 ^ 29 - 1) (s : State) :
    exec (.bind len) s = .next (respond 0#64 (bindSlice (len.setWidth 29) s)) := by
  rw [exec, execBind, needRange_of_legal ((lengthLegal_iff len).mpr hlen)]

theorem exec_bind_of_gt {len : BitVec 32} (hlen : 2 ^ 29 - 1 < len.toNat) (s : State) :
    exec (.bind len) s = .next (faulted s .eRange) := by
  rw [exec, execBind, needRange_of_illegal (mt (lengthLegal_iff len).mp (Nat.not_le.mpr hlen))]

/-- While unbound there is nothing to release (10_state.md R12). -/
theorem dropSlice_of_unbound {s : State} (hinv : s.Inv) (hunbound : s.regs.bound = false) : dropSlice s = s := by
  obtain ⟨-, hzero, -⟩ := hinv
  obtain ⟨hlen, hpos, hsuperseded⟩ := hzero hunbound
  have hregs : (⟨false, 0#29, 0#32, s.regs.crc⟩ : Regs) = s.regs := by rw [← hunbound, ← hlen, ← hpos]
  rw [dropSlice, hregs, ← hsuperseded]

/-- A READ of a legal count on a bound slice is a move of the cursor. -/
theorem exec_read_of_bound {n : BitVec 7} {s : State} (hbound : s.regs.bound = true)
    (hcount : 1 ≤ n.toNat ∧ n.toNat ≤ 64) :
    exec (.read n) s
      = .next (advance n.toNat (BitVec.ofNat 64 (bits s 0 s.regs.pos.toNat n.toNat)) s) := by
  rw [exec, execRead, needSlice_of_bound hbound, needRange_of_legal ((countLegal_iff n).mpr hcount)]

theorem exec_read_of_bad_count {n : BitVec 7} {s : State} (hbound : s.regs.bound = true)
    (hcount : ¬ (1 ≤ n.toNat ∧ n.toNat ≤ 64)) : exec (.read n) s = .next (faulted s .eRange) := by
  rw [exec, execRead, needSlice_of_bound hbound, needRange_of_illegal (mt (countLegal_iff n).mp hcount)]

theorem exec_peek_of_bound {n : BitVec 7} {s : State} (hbound : s.regs.bound = true)
    (hcount : 1 ≤ n.toNat ∧ n.toNat ≤ 64) :
    exec (.peek n) s
      = .next (answered s s.regs (BitVec.ofNat 64 (bits s 0 s.regs.pos.toNat n.toNat))) := by
  rw [exec, execPeek, needSlice_of_bound hbound, needRange_of_legal ((countLegal_iff n).mpr hcount),
    respond_eq_answered]

theorem exec_peek_of_bad_count {n : BitVec 7} {s : State} (hbound : s.regs.bound = true)
    (hcount : ¬ (1 ≤ n.toNat ∧ n.toNat ≤ 64)) : exec (.peek n) s = .next (faulted s .eRange) := by
  rw [exec, execPeek, needSlice_of_bound hbound, needRange_of_illegal (mt (countLegal_iff n).mp hcount)]

theorem exec_skip_of_bound {s : State} (hbound : s.regs.bound = true) (n : BitVec 32) :
    exec (.skip n) s = .next (advance n.toNat 0#64 s) := by
  rw [exec, execSkip, needSlice_of_bound hbound]

theorem exec_pos_of_bound {s : State} (hbound : s.regs.bound = true) :
    exec .pos s = .next (answered s s.regs (s.regs.pos.setWidth 64)) := by
  rw [exec, execPos, needSlice_of_bound hbound, respond_eq_answered]

theorem exec_align_forward {t : BitVec 32} {s : State} (hbound : s.regs.bound = true)
    (hforward : s.regs.pos.toNat ≤ t.toNat) :
    exec (.align t) s = .next (answered s { s.regs with pos := t } 0#64) := by
  rw [exec, execAlign, needSlice_of_bound hbound, if_neg (Nat.not_lt.mpr hforward), respond_setPos]

theorem exec_align_backward {t : BitVec 32} {s : State} (hbound : s.regs.bound = true)
    (hbackward : t.toNat < s.regs.pos.toNat) : exec (.align t) s = .next (faulted s .eBackward) := by
  rw [exec, execAlign, needSlice_of_bound hbound, if_pos hbackward, raise_eq_faulted]

/-! ### The numbers answered -/

/-- The value of a READ or PEEK is the run of bits, most significant first (20_memory.md R32): 64 bits hold it. -/
theorem toNat_ofNat_bits_eq_sum (s : State) (look p : Nat) {n : Nat} (hcount : n ≤ 64) :
    (BitVec.ofNat 64 (bits s look p n)).toNat
      = ∑ i ∈ Finset.range n, bit s look (p + i) * 2 ^ (n - 1 - i) := by
  rw [toNat_ofNat_bits s look p hcount, bitsIsTheBigEndianSum s look p n]

/-- Overrun is the cursor past the end of a bound slice (10_state.md R16). -/
theorem overrun_iff_of_bound {s : State} (hbound : s.regs.bound = true) :
    overrun s = true ↔ 8 * s.regs.len.toNat < s.regs.pos.toNat := by
  rw [overrun, hbound, Bool.true_and, decide_eq_true_iff]

/-! ### The seven commands -/

/-- Settles O23: a length of at most 2^29 - 1 keeps its number in the 29-bit register, and an empty slice has only
positions past its end. -/
theorem bindGivesTheSliceAtItsFirstBit : Obligations.BindGivesTheSliceAtItsFirstBit := by
  refine ⟨fun len s hlen => ?_, fun len s hlen => exec_bind_of_gt hlen s, reservedBitsFault_rowOf (.bind 0#32)⟩
  have hkept : (len.setWidth 29).toNat = len.toNat := by
    rw [BitVec.toNat_setWidth, Nat.mod_eq_of_lt (by omega)]
  refine ⟨_, exec_bind_of_le hlen s, rfl, hkept, rfl, rfl, rfl, rfl, rfl, ?_⟩
  rintro rfl look p
  exact bit_past_end look (Nat.zero_le p)

/-- Settles O24: UNBIND is `dropSlice` and its response, and an unbound block has nothing to drop. -/
theorem unbindReleasesTheSlice : Obligations.UnbindReleasesTheSlice := by
  refine ⟨fun s => ⟨_, rfl, rfl, rfl, rfl, rfl⟩, fun s hinv hunbound => ?_, reservedBitsFault_rowOf .unbind⟩
  rw [exec, execUnbind, dropSlice_of_unbound hinv hunbound, respond_eq_answered]

/-- Settles O25: on a bound slice a READ of a legal count is `advance`; a bad count is refused before it, a position
too large by it. -/
theorem readAnswersTheNextBits : Obligations.ReadAnswersTheNextBits := by
  refine ⟨fun n s hbound hmin hmax hfits => ?_, fun n s => exec_of_unbound rfl, fun n s hbound hbad => ?_,
    reservedBitsFault_rowOf (.read 0#7)⟩
  · rw [exec_read_of_bound hbound ⟨hmin, hmax⟩, advance_of_le hfits]
    exact ⟨_, _, rfl, toNat_ofNat_pos hfits, toNat_ofNat_bits_eq_sum s 0 _ hmax⟩
  · by_cases hcount : 1 ≤ n.toNat ∧ n.toNat ≤ 64
    · rw [exec_read_of_bound hbound hcount, advance_of_gt (by omega)]
    · exact exec_read_of_bad_count hbound hcount

/-- Settles O26: a PEEK checks its count only, so no position is refused. -/
theorem peekAnswersWithoutMoving : Obligations.PeekAnswersWithoutMoving := by
  refine ⟨fun n s hbound hmin hmax => ?_, fun n s => exec_of_unbound rfl, fun n s hbound hbad => ?_,
    reservedBitsFault_rowOf (.peek 0#7)⟩
  · exact ⟨_, exec_peek_of_bound hbound ⟨hmin, hmax⟩, toNat_ofNat_bits_eq_sum s 0 _ hmax⟩
  · exact exec_peek_of_bad_count hbound (by omega)

/-- Settles O27: on a bound slice a SKIP is `advance` by its count. -/
theorem skipAdvancesByItsCount : Obligations.SkipAdvancesByItsCount := by
  refine ⟨fun n s hbound hfits => ?_, fun n s => exec_of_unbound rfl, fun n s hbound hpast => ?_,
    reservedBitsFault_rowOf (.skip 0#32)⟩
  · rw [exec_skip_of_bound hbound, advance_of_le hfits]
    exact ⟨_, rfl, toNat_ofNat_pos hfits⟩
  · rw [exec_skip_of_bound hbound, advance_of_gt hpast]

/-- Settles O28: the value is the cursor's number, which the overrun test compares with the end of the slice. -/
theorem posAnswersTheCursor : Obligations.PosAnswersTheCursor := by
  refine ⟨fun s hbound => ?_, fun s => exec_of_unbound rfl, reservedBitsFault_rowOf .pos⟩
  have hvalue : (s.regs.pos.setWidth 64).toNat = s.regs.pos.toNat :=
    BitVec.toNat_setWidth_of_le (by decide)
  refine ⟨_, exec_pos_of_bound hbound, hvalue, ?_⟩
  rw [hvalue]
  exact overrun_iff_of_bound hbound

/-- Settles O29: the target's side of the cursor is the only thing an ALIGN on a bound slice tests. -/
theorem alignMovesForwardToItsTarget : Obligations.AlignMovesForwardToItsTarget :=
  ⟨fun _ _ => exec_align_forward, fun _ _ => exec_of_unbound rfl, fun _ _ => exec_align_backward,
    reservedBitsFault_rowOf (.align 0#32)⟩

end Sys2Proof.Machine
end

section
/-! The VarField command (spec/41_varfield.md R101, R102): what the prefix selects, what VARF does past its checks, the
number it answers, and then the command. -/

namespace Sys2Proof.Machine

/-- `base(k)` in the sum of 41_varfield.md R101. -/
theorem varfBase_eq_sum (W : Nat → Nat) (k : Nat) : varfBase W k = ∑ j ∈ Finset.range k, 2 ^ W j := by
  induction k with
  | zero => rfl
  | succ k ih => rw [varfBase_succ, ih, Finset.sum_range_succ]

theorem index_le_of_prefixRow {P index used : Nat} (hrow : prefixRow P index used) : index ≤ 3 := by
  unfold prefixRow at hrow
  omega

/-- The row of the prefix table decides how far the cursor moves and which value is answered (41_varfield.md R102). -/
theorem decodeVarfield_of_prefixRow {s : State} {index used : Nat}
    (hrow : prefixRow (bits s 0 s.regs.pos.toNat 3) index used) (W : Nat → Nat) (add : Bool) :
    decodeVarfield W add s = advance (used + W index) (BitVec.ofNat 64 (varfValue s W add index used)) s := by
  have htable : prefixTable (bits s 0 s.regs.pos.toNat Config.vfPrefix) = (index, used) :=
    (prefixRow_iff (bits_lt s 0 s.regs.pos.toNat 3)).mp hrow
  rw [decodeVarfield, htable]

/-- A VARF with a legal table on a bound slice is a move of the cursor. -/
theorem exec_varf_of_bound {w0 w1 w2 w3 : BitVec 6} {s : State} {index used : Nat} (hbound : s.regs.bound = true)
    (hwidths : widthsAtMost32 w0 w1 w2 w3) (hrow : prefixRow (bits s 0 s.regs.pos.toNat 3) index used)
    (add : Bool) :
    exec (.varf w0 w1 w2 w3 add) s
      = .next (advance (used + varfWidth w0 w1 w2 w3 index)
          (BitVec.ofNat 64 (varfValue s (varfWidth w0 w1 w2 w3) add index used)) s) := by
  rw [exec, execVarf, needSlice_of_bound hbound, needRange_of_legal ((widthsLegal_iff w0 w1 w2 w3).mpr hwidths),
    decodeVarfield_of_prefixRow hrow]

/-- One width above 32 is enough, whether or not the stream selects it (41_varfield.md R106d). -/
theorem exec_varf_of_bad_widths {w0 w1 w2 w3 : BitVec 6} {s : State} (hbound : s.regs.bound = true)
    (hwidths : ¬ widthsAtMost32 w0 w1 w2 w3) (add : Bool) :
    exec (.varf w0 w1 w2 w3 add) s = .next (faulted s .eRange) := by
  rw [exec, execVarf, needSlice_of_bound hbound, needRange_of_illegal (mt (widthsLegal_iff w0 w1 w2 w3).mp hwidths)]

/-- With a legal table the response holds the whole value: it is below 2^34 (41_varfield.md R101). -/
theorem toNat_ofNat_varfValue {w0 w1 w2 w3 : BitVec 6} (hwidths : widthsAtMost32 w0 w1 w2 w3) (s : State)
    (add : Bool) {index : Nat} (used : Nat) (hindex : index ≤ 3) :
    (BitVec.ofNat 64 (varfValue s (varfWidth w0 w1 w2 w3) add index used)).toNat
      = varfValue s (varfWidth w0 w1 w2 w3) add index used := by
  have hlt := varfValue_lt hwidths s add used hindex
  rw [BitVec.toNat_ofNat, Nat.mod_eq_of_lt (by omega)]

/-- Settles O30: past its checks VARF is `advance` by the prefix and the value field. A position too large is refused by
it, an illegal table before it, with the same status. -/
theorem varfDecodesThePrefixCode : Obligations.VarfDecodesThePrefixCode := by
  refine ⟨fun w0 w1 w2 w3 add s index used hbound hwidths hrow hfits => ?_,
    fun w0 w1 w2 w3 add s => exec_of_unbound rfl,
    fun w0 w1 w2 w3 add s hbound hwidths => exec_varf_of_bad_widths hbound hwidths add,
    fun w0 w1 w2 w3 add s index used hbound hrow hpast => ?_,
    reservedBitsFault_rowOf (.varf 0#6 0#6 0#6 0#6 false)⟩
  · rw [Nat.add_assoc] at hfits
    have hindex := index_le_of_prefixRow hrow
    have hvalue := toNat_ofNat_varfValue hwidths s add used hindex
    rw [exec_varf_of_bound hbound hwidths hrow, advance_of_le hfits]
    refine ⟨_, _, rfl, ?_, ?_, ?_⟩
    · rw [toNat_ofNat_pos hfits, Nat.add_assoc]
    · rw [hvalue, varfValue, varfBase_eq_sum]
    · rw [hvalue]
      exact varfValue_lt hwidths s add used hindex
  · by_cases hwidths : widthsAtMost32 w0 w1 w2 w3
    · rw [exec_varf_of_bound hbound hwidths hrow, advance_of_gt (by omega)]
    · exact exec_varf_of_bad_widths hbound hwidths add

end Sys2Proof.Machine
end

section
/-! The CRC check (spec/42_crc16.md R118, R119, R120): the table update in integers, the walk over a window as a fold,
and the command. -/

namespace Sys2Proof.Machine

/-! ### The update for one nibble -/

/-- The table read as integers (42_crc16.md R117). -/
theorem toNat_crcEntry (i : BitVec 4) : (crcEntry i).toNat = (crcTable.map BitVec.toNat).getD i.toNat 0 :=
  (List.getD_map _ (0#16) BitVec.toNat).symm

/-- The top nibble of the register is its number over 2^12: nothing is above it (42_crc16.md R118). -/
theorem toNat_topNibble (c : BitVec 16) : (c.extractLsb' 12 4).toNat = c.toNat >>> 12 := by
  have htop : c.toNat >>> 12 < 2 ^ 4 := by rw [Nat.shiftRight_eq_div_pow]; omega
  rw [BitVec.extractLsb'_toNat, Nat.mod_eq_of_lt htop]

/-- Settles O51: the shift drops what leaves the 16 bits, and the index is the exclusive-or of two nibbles. -/
theorem crcStepIsTheTableUpdate : Obligations.CrcStepIsTheTableUpdate := by
  intro c nib
  rw [crcStep, BitVec.toNat_xor, BitVec.toNat_shiftLeft, toNat_crcEntry, BitVec.toNat_xor, toNat_topNibble]
  rfl

/-! ### The walk over a window -/

/-- The walk is the fold of the update over the nibbles in stream order, whatever the register starts from. -/
theorem crcNibbles_eq_foldl (s : State) (k p : Nat) (c : BitVec 16) :
    crcNibbles s k p c
      = (List.range k).foldl (fun c i => crcStep c (BitVec.ofNat 4 (bits s 0 (p + 4 * i) 4))) c := by
  induction k with
  | zero => rfl
  | succ k ih =>
    rw [List.range_succ, List.foldl_concat, crcNibbles_add, ih, crcNibbles_succ, crcNibbles_zero]

/-- Settles O52: a window is a walk of two nibbles to the byte from `CRC_INIT`. -/
theorem crcWindowIsTheNibbleFold : Obligations.CrcWindowIsTheNibbleFold :=
  fun s start nbytes => crcNibbles_eq_foldl s (2 * nbytes) start 0xFFFF#16

/-! ### The command -/

/-- The response value in integers: `valid` at bit 16 over the residual (42_crc16.md R120). -/
theorem toNat_crcValue (c : BitVec 16) : (crcValue c).toNat = c.toNat + (if c = 0#16 then 2 ^ 16 else 0) := by
  by_cases hzero : c = 0#16
  · subst hzero
    rfl
  · rw [crcValue, validBit, if_neg hzero, if_neg hzero, BitVec.toNat_append, BitVec.toNat_append]
    simp

theorem exec_crcchk_of_bound {s : State} (hbound : s.regs.bound = true) (start : BitVec 32) (nbytes : BitVec 24) :
    exec (.crcchk start nbytes) s
      = .next (answered s { s.regs with crc := crcWindow s start.toNat nbytes.toNat }
          (crcValue (crcWindow s start.toNat nbytes.toNat))) := by
  rw [exec, execCrcchk, needSlice_of_bound hbound, respond_setCrc]

/-- Settles O31: a bound slice is all a CRCCHK needs, and its format has no reserved bit. -/
theorem crcchkAnswersTheResidual : Obligations.CrcchkAnswersTheResidual := by
  refine ⟨fun start nbytes s hbound => ?_, fun start nbytes s => exec_of_unbound rfl, fun w hop => ?_⟩
  · exact ⟨_, exec_crcchk_of_bound hbound start nbytes, toNat_crcValue _⟩
  · exact ⟨_, _, decode_of_match (.crcchk 0#32 0#24) (crcchk_match_of_fieldOp hop)⟩

end Sys2Proof.Machine
end

section
/-! The faults and their order (spec/60_exceptions.md R162 to R165, R167). `commandFault` is the fixed order of R167 for a
decoded command; `exec_answers_commandFault` says that executing the command answers it, and each statement about one
status is read off that order. -/

namespace Sys2Proof.Machine

/-! ### Answers and ends -/

/-- A command has one response, so one status. -/
theorem answers_unique {s t : State} {f g : Status} (hf : answers s t f) (hg : answers s t g) : f = g := by
  obtain ⟨v, hv⟩ := hf
  obtain ⟨u, hu⟩ := hg
  simp only [hv, List.append_cancel_left_eq, List.cons.injEq, Response.mk.injEq] at hu
  exact hu.1.1

theorem faulted_answers (s : State) (f : Status) : answers s (faulted s f) f := ⟨0#64, rfl⟩

/-- A command that ends with another status than OK has only answered it (60_exceptions.md R161). -/
theorem Ends.eq_faulted {i : Instr} {s t : State} {f : Status} (hends : Ends i s t) (hf : answers s t f)
    (hfault : f ≠ .ok) : t = faulted s f := by
  rcases hends with ⟨g, -, -, rfl⟩ | hcompleted
  · rw [answers_unique hf (faulted_answers s g), raise_eq_faulted]
  · exact absurd (answers_unique hf hcompleted.responses) hfault

/-- No decoded command is illegal, whatever its operands (60_exceptions.md R162). -/
theorem Ends.not_illegal {i : Instr} {s t : State} (hends : Ends i s t) : ¬ answers s t .eIllegal := by
  intro hillegal
  rcases hends with ⟨f, -, hlegal, rfl⟩ | hcompleted
  · exact hlegal (answers_unique (faulted_answers s f) hillegal)
  · exact absurd (answers_unique hillegal hcompleted.responses) (by decide)

theorem step_of_decode_ok {s : State} {w : CmdWord} {rest : List HostEvent} {i : Instr}
    (hhost : s.host = .command w :: rest) (hdecode : decode w = .ok i) :
    step s = exec i { s with host := rest } := by
  rw [step_command hhost, hdecode]

/-! ### The order of the checks -/

/-- The status of a decoded command by the fixed order of checks (60_exceptions.md R167). -/
def commandFault (i : Instr) (s : State) : Status :=
  if needsSlice i = true ∧ s.regs.bound = false then .eNull
  else if wellFormed i = false then .eRange
  else if newPos i s > 2 ^ 32 - 1 then .eRange
  else if alignsBackward i s = true then .eBackward
  else .ok

theorem firstFault_of_decode_ok {w : CmdWord} {i : Instr} (hdecode : decode w = .ok i) (s : State) :
    firstFault w s = commandFault i s := by
  rw [firstFault, hdecode, commandFault]

theorem firstFault_of_decode_error {w : CmdWord} {e : DecodeError} (hdecode : decode w = .error e) (s : State) :
    firstFault w s = .eIllegal := by
  rw [firstFault, hdecode]

/-- The slice is there if the command needs it: the check of 60_exceptions.md R163 is passed. -/
def sliceReady (i : Instr) (s : State) : Prop := needsSlice i = true → s.regs.bound = true

theorem not_sliceReady_iff {i : Instr} {s : State} :
    ¬ sliceReady i s ↔ needsSlice i = true ∧ s.regs.bound = false := by
  rw [sliceReady, Classical.not_imp, Bool.not_eq_true]

theorem commandFault_of_not_ready {i : Instr} {s : State} (hready : ¬ sliceReady i s) : commandFault i s = .eNull :=
  if_pos (not_sliceReady_iff.mp hready)

theorem commandFault_of_ready {i : Instr} {s : State} (hready : sliceReady i s) :
    commandFault i s
      = if wellFormed i = false ∨ 2 ^ 32 - 1 < newPos i s then .eRange
        else if alignsBackward i s = true then .eBackward else .ok := by
  rw [commandFault, if_neg fun h => not_sliceReady_iff.mpr h hready, ite_or]

/-! ### What each check decides -/

/-- The row of the prefix table that the stream selects at the cursor (41_varfield.md R102). -/
theorem exists_prefixRow (s : State) : ∃ index used, prefixRow (bits s 0 s.regs.pos.toNat 3) index used :=
  ⟨_, _, (prefixRow_iff (bits_lt s 0 s.regs.pos.toNat 3)).mpr rfl⟩

theorem newPos_varf {s : State} {index used : Nat} (hrow : prefixRow (bits s 0 s.regs.pos.toNat 3) index used)
    (w0 w1 w2 w3 : BitVec 6) (add : Bool) :
    newPos (.varf w0 w1 w2 w3 add) s = s.regs.pos.toNat + used + varfWidth w0 w1 w2 w3 index := by
  have htable := (prefixRow_iff (bits_lt s 0 s.regs.pos.toNat 3)).mp hrow
  rw [newPos, htable]

theorem alignsBackward_iff {i : Instr} {s : State} :
    alignsBackward i s = true ↔ ∃ t, i = .align t ∧ t.toNat < s.regs.pos.toNat := by
  cases i <;> simp [alignsBackward]

/-- An operand outside its range is refused before the position is looked at (60_exceptions.md R164a, b, d). -/
theorem exec_of_not_wellFormed {i : Instr} {s : State} (hready : sliceReady i s) (hill : ¬ wellFormed i = true) :
    exec i s = .next (faulted s .eRange) := by
  cases i with
  | bind len => exact exec_bind_of_gt (not_le.mp (mt (lengthLegal_iff len).mpr hill)) s
  | read n => exact exec_read_of_bad_count (hready rfl) (mt (countLegal_iff n).mpr hill)
  | peek n => exact exec_peek_of_bad_count (hready rfl) (mt (countLegal_iff n).mpr hill)
  | varf w0 w1 w2 w3 add =>
    exact exec_varf_of_bad_widths (hready rfl) (mt (widthsLegal_iff w0 w1 w2 w3).mpr hill) add
  | unbind => exact absurd rfl hill
  | skip n => exact absurd rfl hill
  | pos => exact absurd rfl hill
  | align t => exact absurd rfl hill
  | crcchk start nbytes => exact absurd rfl hill

/-- A position the register holds is never past the last one (10_state.md R13). -/
theorem not_posMax_lt_toNat (p : BitVec 32) : ¬ 2 ^ 32 - 1 < p.toNat :=
  Nat.not_lt.mpr (Nat.le_pred_of_lt p.isLt)

/-- The three moves of the cursor are refused past the last position (60_exceptions.md R164c, d); no other command
computes a position that the register does not hold. -/
theorem exec_of_newPos_gt {i : Instr} {s : State} (hready : sliceReady i s) (hlegal : wellFormed i = true)
    (hpast : 2 ^ 32 - 1 < newPos i s) : exec i s = .next (faulted s .eRange) := by
  cases i with
  | read n => rw [exec_read_of_bound (hready rfl) ((countLegal_iff n).mp hlegal), advance_of_gt hpast]
  | skip n => rw [exec_skip_of_bound (hready rfl), advance_of_gt hpast]
  | varf w0 w1 w2 w3 add =>
    obtain ⟨index, used, hrow⟩ := exists_prefixRow s
    rw [newPos_varf hrow, Nat.add_assoc] at hpast
    rw [exec_varf_of_bound (hready rfl) ((widthsLegal_iff w0 w1 w2 w3).mp hlegal) hrow, advance_of_gt hpast]
  | align t => exact absurd hpast (not_posMax_lt_toNat t)
  | bind len => exact absurd hpast (Nat.not_lt_zero _)
  | unbind => exact absurd hpast (Nat.not_lt_zero _)
  | peek n => exact absurd hpast (not_posMax_lt_toNat s.regs.pos)
  | pos => exact absurd hpast (not_posMax_lt_toNat s.regs.pos)
  | crcchk start nbytes => exact absurd hpast (not_posMax_lt_toNat s.regs.pos)

theorem advance_answers_ok {s : State} {n : Nat} (hfits : s.regs.pos.toNat + n ≤ 2 ^ 32 - 1) (v : Value) :
    answers s (advance n v s) .ok :=
  ⟨v, by rw [advance_of_le hfits, answered]⟩

/-- A command that passes every check answers OK. -/
theorem exec_answers_ok {i : Instr} {s : State} (hready : sliceReady i s) (hlegal : wellFormed i = true)
    (hfits : newPos i s ≤ 2 ^ 32 - 1) (hforward : ¬ alignsBackward i s = true) :
    ∃ t, exec i s = .next t ∧ answers s t .ok := by
  cases i with
  | bind len => exact ⟨_, exec_bind_of_le ((lengthLegal_iff len).mp hlegal) s, _, rfl⟩
  | unbind => exact ⟨_, rfl, _, rfl⟩
  | read n =>
    exact ⟨_, exec_read_of_bound (hready rfl) ((countLegal_iff n).mp hlegal), advance_answers_ok hfits _⟩
  | peek n => exact ⟨_, exec_peek_of_bound (hready rfl) ((countLegal_iff n).mp hlegal), _, rfl⟩
  | skip n => exact ⟨_, exec_skip_of_bound (hready rfl) n, advance_answers_ok hfits _⟩
  | pos => exact ⟨_, exec_pos_of_bound (hready rfl), _, rfl⟩
  | align t =>
    have hle : s.regs.pos.toNat ≤ t.toNat :=
      Nat.not_lt.mp fun hlt => hforward (alignsBackward_iff.mpr ⟨t, rfl, hlt⟩)
    exact ⟨_, exec_align_forward (hready rfl) hle, _, rfl⟩
  | varf w0 w1 w2 w3 add =>
    obtain ⟨index, used, hrow⟩ := exists_prefixRow s
    rw [newPos_varf hrow, Nat.add_assoc] at hfits
    exact ⟨_, exec_varf_of_bound (hready rfl) ((widthsLegal_iff w0 w1 w2 w3).mp hlegal) hrow add,
      advance_answers_ok hfits _⟩
  | crcchk start nbytes => exact ⟨_, exec_crcchk_of_bound (hready rfl) start nbytes, _, rfl⟩

/-- Executing a command answers the first fault that applies (60_exceptions.md R167). -/
theorem exec_answers_commandFault (i : Instr) (s : State) :
    ∃ t, exec i s = .next t ∧ answers s t (commandFault i s) := by
  by_cases hready : sliceReady i s
  · rw [commandFault_of_ready hready]
    split_ifs with hrange hbackward
    · by_cases hlegal : wellFormed i = true
      · have hpast := hrange.resolve_left (by simp [hlegal])
        exact ⟨_, exec_of_newPos_gt hready hlegal hpast, faulted_answers s _⟩
      · exact ⟨_, exec_of_not_wellFormed hready hlegal, faulted_answers s _⟩
    · obtain ⟨t, rfl, hlt⟩ := alignsBackward_iff.mp hbackward
      exact ⟨_, exec_align_backward (hready rfl) hlt, faulted_answers s _⟩
    · obtain ⟨hlegal, hfits⟩ := not_or.mp hrange
      exact exec_answers_ok hready (Bool.not_eq_false _ ▸ hlegal) (not_lt.mp hfits) hbackward
  · obtain ⟨hneeds, hunbound⟩ := not_sliceReady_iff.mp hready
    rw [commandFault_of_not_ready hready]
    exact ⟨_, exec_of_unbound hneeds hunbound, faulted_answers s _⟩

/-- A command takes a fault, and does nothing else, exactly when it is the first that applies. -/
theorem exec_eq_faulted_iff {i : Instr} {s : State} {f : Status} (hfault : f ≠ .ok) :
    exec i s = .next (faulted s f) ↔ commandFault i s = f := by
  obtain ⟨t, hexec, hanswers⟩ := exec_answers_commandFault i s
  constructor
  · intro hfaulted
    rw [hfaulted] at hexec
    cases hexec
    exact answers_unique hanswers (faulted_answers s f)
  · rintro rfl
    rw [hexec, (exec_ends hexec).eq_faulted hanswers hfault]

/-! ### Each status in the order -/

theorem commandFault_eq_eNull_iff {i : Instr} {s : State} : commandFault i s = .eNull ↔ ¬ sliceReady i s := by
  by_cases hready : sliceReady i s
  · rw [commandFault_of_ready hready]
    split_ifs <;> simp [hready]
  · exact iff_of_true (commandFault_of_not_ready hready) hready

theorem commandFault_eq_eRange_iff {i : Instr} {s : State} :
    commandFault i s = .eRange ↔ sliceReady i s ∧ (wellFormed i = false ∨ 2 ^ 32 - 1 < newPos i s) := by
  by_cases hready : sliceReady i s
  · rw [commandFault_of_ready hready, and_iff_right hready]
    split_ifs with hrange <;> simp only [hrange]
  · simp [commandFault_of_not_ready hready, hready]

theorem commandFault_eq_eBackward_iff {i : Instr} {s : State} :
    commandFault i s = .eBackward
      ↔ sliceReady i s ∧ ¬ (wellFormed i = false ∨ 2 ^ 32 - 1 < newPos i s) ∧ alignsBackward i s = true := by
  by_cases hready : sliceReady i s
  · rw [commandFault_of_ready hready, and_iff_right hready]
    split_ifs with hrange hbackward
    · exact iff_of_false (by decide) fun h => h.1 hrange
    · exact iff_of_true rfl ⟨hrange, hbackward⟩
    · exact iff_of_false (by decide) fun h => hbackward h.2
  · simp [commandFault_of_not_ready hready, hready]

/-! ### The cases of `E_RANGE` -/

theorem lengthLegal_eq_false_iff (len : BitVec 32) : lengthLegal len = false ↔ 2 ^ 29 - 1 < len.toNat := by
  rw [← Bool.not_eq_true, lengthLegal_iff, Nat.not_le]

theorem countLegal_eq_false_iff (n : BitVec 7) : countLegal n = false ↔ n.toNat = 0 ∨ 64 < n.toNat := by
  rw [← Bool.not_eq_true, countLegal_iff]
  omega

theorem wellFormed_varf_eq_false_iff (w0 w1 w2 w3 : BitVec 6) (add : Bool) :
    wellFormed (.varf w0 w1 w2 w3 add) = false ↔ ¬ widthsAtMost32 w0 w1 w2 w3 := by
  rw [wellFormed, ← Bool.not_eq_true, widthsLegal_iff]

theorem lt_newPos_varf_iff (w0 w1 w2 w3 : BitVec 6) (add : Bool) (s : State) (n : Nat) :
    n < newPos (.varf w0 w1 w2 w3 add) s
      ↔ ∃ index used, prefixRow (bits s 0 s.regs.pos.toNat 3) index used
          ∧ n < s.regs.pos.toNat + used + varfWidth w0 w1 w2 w3 index := by
  constructor
  · intro hpast
    obtain ⟨index, used, hrow⟩ := exists_prefixRow s
    exact ⟨index, used, hrow, newPos_varf hrow w0 w1 w2 w3 add ▸ hpast⟩
  · rintro ⟨index, used, hrow, hpast⟩
    rwa [newPos_varf hrow]

/-- The cases (a) to (d) of 60_exceptions.md R164 are the two checks of R167 at each command. -/
theorem rangeFaultCase_iff {i : Instr} {s : State} :
    rangeFaultCase i s ↔ sliceReady i s ∧ (wellFormed i = false ∨ 2 ^ 32 - 1 < newPos i s) := by
  have hpos := not_posMax_lt_toNat s.regs.pos
  cases i with
  | bind len =>
    simp [rangeFaultCase, sliceReady, needsSlice, wellFormed, newPos, lengthLegal_eq_false_iff]
  | read n =>
    simp [rangeFaultCase, sliceReady, needsSlice, wellFormed, newPos, countLegal_eq_false_iff, or_assoc]
  | peek n =>
    simp only [rangeFaultCase, sliceReady, needsSlice, wellFormed, newPos, countLegal_eq_false_iff, hpos,
      or_false, true_imp_iff]
  | skip n => simp [rangeFaultCase, sliceReady, needsSlice, wellFormed, newPos]
  | varf w0 w1 w2 w3 add =>
    rw [wellFormed_varf_eq_false_iff, lt_newPos_varf_iff]
    simp [rangeFaultCase, sliceReady, needsSlice]
  | unbind => simp [rangeFaultCase, wellFormed, newPos]
  | pos => exact iff_of_false id fun h => h.2.elim nofun hpos
  | align t => exact iff_of_false id fun h => h.2.elim nofun (not_posMax_lt_toNat t)
  | crcchk start nbytes => exact iff_of_false id fun h => h.2.elim nofun hpos

/-! ### The statements about one status, and the order -/

theorem bits_past_end {s : State} {p : Nat} (look n : Nat) (h : 8 * s.regs.len.toNat ≤ p) :
    bits s look p n = 0 := by
  induction n with
  | zero => rfl
  | succ n ih => rw [bits_succ, ih, bit_past_end look (Nat.le_add_right_of_le h)]

/-- Settles O16: a word on no row does not decode, and a decoded command never ends with `E_ILLEGAL`. -/
theorem illegalExactlyWhenUndecodable : Obligations.IllegalExactlyWhenUndecodable := by
  intro s w rest hhost
  rw [← decode_error_iff]
  constructor
  · rintro ⟨e, hdecode⟩
    exact step_of_decode_error hhost hdecode
  · intro hstep
    cases hdecode : decode w with
    | error e => exact ⟨e, rfl⟩
    | ok i =>
      rw [step_of_decode_ok hhost hdecode] at hstep
      exact absurd (faulted_answers _ .eIllegal) (exec_ends hstep).not_illegal

/-- Settles O17: `E_NULL` is the first check; with length 0 every position is past the end. -/
theorem nullExactlyWhileUnbound : Obligations.NullExactlyWhileUnbound := by
  refine ⟨fun i s => ?_, fun n t w0 w1 w2 w3 add nbytes => by simp [needsSlice], fun s look p n hlen => ?_⟩
  · rw [exec_eq_faulted_iff (by decide), commandFault_eq_eNull_iff, not_sliceReady_iff]
  · exact bits_past_end look n (by simp [hlen])

/-- Settles O18: `E_RANGE` is the second and the third check. -/
theorem rangeExactlyInItsCases : Obligations.RangeExactlyInItsCases := by
  intro i s
  rw [exec_eq_faulted_iff (by decide), commandFault_eq_eRange_iff, rangeFaultCase_iff]

/-- Settles O19: `E_BACKWARD` is the last check, which only an ALIGN can fail. -/
theorem backwardExactlyOfAnEarlierTarget : Obligations.BackwardExactlyOfAnEarlierTarget := by
  intro i s
  rw [exec_eq_faulted_iff (by decide), commandFault_eq_eBackward_iff]
  constructor
  · rintro ⟨hready, -, hbackward⟩
    obtain ⟨t, rfl, hlt⟩ := alignsBackward_iff.mp hbackward
    exact ⟨t, rfl, hready rfl, hlt⟩
  · rintro ⟨t, rfl, hbound, hlt⟩
    exact ⟨fun _ => hbound, not_or.mpr ⟨nofun, not_posMax_lt_toNat t⟩, alignsBackward_iff.mpr ⟨t, rfl, hlt⟩⟩

/-- Settles O20: a word that does not decode is illegal; a command answers its `commandFault`. -/
theorem statusIsTheFirstFaultThatApplies : Obligations.StatusIsTheFirstFaultThatApplies := by
  intro s w rest hhost
  cases hdecode : decode w with
  | error e =>
    rw [step_of_decode_error hhost hdecode, firstFault_of_decode_error hdecode]
    exact ⟨_, rfl, faulted_answers _ _⟩
  | ok i =>
    rw [step_of_decode_ok hhost hdecode, firstFault_of_decode_ok hdecode]
    exact exec_answers_commandFault i { s with host := rest }

end Sys2Proof.Machine
end

section
/-! A fault leaves no trace (spec/60_exceptions.md R161): two states in which the block sees the same go on alike, and a
fault changes nothing the block sees of a kept slice. -/

namespace Sys2Proof.Machine

/-- The block sees the same in both states: the registers and every bit of the stream. -/
structure SeenAlike (s s' : State) : Prop where
  regs : s'.regs = s.regs
  bit : ∀ look p, bit s' look p = bit s look p

/-- From `s` and `s'` a command ended with the same registers in `t` and `t'`, and with the same response. -/
def EndsAlike (s s' t t' : State) : Prop :=
  t'.regs = t.regs ∧ ∃ r, t.responses = s.responses ++ [r] ∧ t'.responses = s'.responses ++ [r]

/-- A fault leaves every bit of a kept slice as it was: only the model's counter has moved, and no choice is left to it
(log entries 5 and 7). -/
theorem seenAlike_faulted {s : State} (hkept : sliceKept s) (f : Status) : SeenAlike s (faulted s f) := by
  refine ⟨rfl, fun look p => ?_⟩
  rw [bit, bit, memRead_kept hkept, memRead_kept (s := faulted s f) hkept]
  rfl

section
variable {s s' k k' : State} (h : SeenAlike s s')
include h

theorem bits_of_seenAlike (look p n : Nat) : bits s' look p n = bits s look p n :=
  bits_congr fun _ _ => h.bit look _

theorem crcWindow_of_seenAlike (start nbytes : Nat) : crcWindow s' start nbytes = crcWindow s start nbytes :=
  crcNibbles_congr _ fun _ _ => h.bit 0 _

theorem endsAlike_raise (f : Status) : EndsAlike s s' (raise f s) (raise f s') :=
  ⟨h.regs, _, rfl, rfl⟩

theorem endsAlike_respond (v : Value) : EndsAlike s s' (respond v s) (respond v s') :=
  ⟨h.regs, _, rfl, rfl⟩

theorem endsAlike_respond_setPos (v : Value) (p : BitVec 32) :
    EndsAlike s s' (respond v (setPos p s)) (respond v (setPos p s')) :=
  ⟨by simp [h.regs], _, rfl, rfl⟩

theorem endsAlike_needSlice (hk : EndsAlike s s' k k') : EndsAlike s s' (needSlice s k) (needSlice s' k') := by
  rw [needSlice, needSlice, h.regs]
  split
  · exact hk
  · exact endsAlike_raise h _

theorem endsAlike_needRange (legal : Bool) (hk : EndsAlike s s' k k') :
    EndsAlike s s' (needRange legal s k) (needRange legal s' k') := by
  rw [needRange, needRange]
  split
  · exact hk
  · exact endsAlike_raise h _

theorem endsAlike_advance (n : Nat) (v : Value) : EndsAlike s s' (advance n v s) (advance n v s') := by
  rw [advance, advance, h.regs]
  split
  · exact endsAlike_raise h _
  · exact endsAlike_respond_setPos h v _

theorem endsAlike_decodeVarfield (W : Nat → Nat) (add : Bool) :
    EndsAlike s s' (decodeVarfield W add s) (decodeVarfield W add s') := by
  obtain ⟨index, used, hrow⟩ := exists_prefixRow s
  have hrow' : prefixRow (bits s' 0 s'.regs.pos.toNat 3) index used := by rwa [h.regs, bits_of_seenAlike h]
  have hvalue : varfValue s' W add index used = varfValue s W add index used := by
    rw [varfValue, varfValue, h.regs, bits_of_seenAlike h]
  rw [decodeVarfield_of_prefixRow hrow, decodeVarfield_of_prefixRow hrow', hvalue]
  exact endsAlike_advance h _ _

/-- What a command does is decided by what it sees. -/
theorem endsAlike_exec (i : Instr) :
    ∃ t t', exec i s = .next t ∧ exec i s' = .next t' ∧ EndsAlike s s' t t' := by
  cases i with
  | bind len => exact ⟨_, _, rfl, rfl, endsAlike_needRange h _ ⟨by simp [h.regs], _, rfl, rfl⟩⟩
  | unbind => exact ⟨_, _, rfl, rfl, by simp [h.regs], _, rfl, rfl⟩
  | read n =>
    refine ⟨_, _, rfl, rfl, endsAlike_needSlice h (endsAlike_needRange h _ ?_)⟩
    rw [h.regs, bits_of_seenAlike h]
    exact endsAlike_advance h _ _
  | peek n =>
    refine ⟨_, _, rfl, rfl, endsAlike_needSlice h (endsAlike_needRange h _ ?_)⟩
    rw [h.regs, bits_of_seenAlike h]
    exact endsAlike_respond h _
  | skip n => exact ⟨_, _, rfl, rfl, endsAlike_needSlice h (endsAlike_advance h _ _)⟩
  | pos =>
    refine ⟨_, _, rfl, rfl, endsAlike_needSlice h ?_⟩
    rw [h.regs]
    exact endsAlike_respond h _
  | align t =>
    refine ⟨_, _, rfl, rfl, endsAlike_needSlice h ?_⟩
    rw [h.regs]
    split
    · exact endsAlike_raise h _
    · exact endsAlike_respond_setPos h _ _
  | varf w0 w1 w2 w3 add =>
    exact ⟨_, _, rfl, rfl, endsAlike_needSlice h (endsAlike_needRange h _ (endsAlike_decodeVarfield h _ add))⟩
  | crcchk start nbytes =>
    refine ⟨_, _, rfl, rfl, endsAlike_needSlice h ?_⟩
    rw [crcWindow_of_seenAlike h]
    exact ⟨by simp [h.regs], _, rfl, rfl⟩

end

/-- Settles O21: a fault is only its response, and over a kept slice the next command sees nothing of it. -/
theorem faultsLeaveNoTrace : Obligations.FaultsLeaveNoTrace := by
  refine ⟨fun s t w rest f v hhost hstep hresponse hfault => ?_, fun s f i hkept => ?_⟩
  · have hanswers : answers { s with host := rest } t f := ⟨v, hresponse⟩
    cases hdecode : decode w with
    | error e =>
      rw [step_of_decode_error hhost hdecode] at hstep
      cases hstep
      rw [answers_unique hanswers (faulted_answers _ _)]
    | ok i =>
      rw [step_of_decode_ok hhost hdecode] at hstep
      exact (exec_ends hstep).eq_faulted hanswers hfault
  · obtain ⟨t, u, ht, hu, hregs, r, htr, hur⟩ := endsAlike_exec (seenAlike_faulted hkept f) i
    have hmem : u.mem = t.mem := (exec_ends hu).mem_eq.trans (exec_ends ht).mem_eq.symm
    exact ⟨t, u, r, ht, hu, hregs, hmem, htr, by simp [hur, faulted]⟩

end Sys2Proof.Machine
end

section
/-! What is no fault (spec/60_exceptions.md R166): the end of the slice overrun, and a CRC mismatch. -/

namespace Sys2Proof.Machine

/-- Bit 16 of a CRCCHK response is `valid` (42_crc16.md R120). -/
theorem crcValue_getLsbD_valid (c : BitVec 16) : (crcValue c).getLsbD 16 = decide (c = 0#16) := by
  have hvalid : (crcValue c).getLsbD 16 = (validBit c).getLsbD 0 := by
    simp only [crcValue, BitVec.getLsbD_append]
    rfl
  by_cases hzero : c = 0#16 <;> rw [hvalid, validBit] <;> simp [hzero]

/-- Settles O22: no check looks at the end of the slice, where the bits are 0, or at the residual. -/
theorem overrunAndMismatchAreNoFaults : Obligations.OverrunAndMismatchAreNoFaults := by
  refine ⟨fun n s hbound hmin hmax hfits hend => ?_, fun n s hbound hfits _ => ?_,
    fun t s hbound hforward _ => exec_align_forward hbound hforward, fun start nbytes s hbound hresidual => ?_⟩
  · rw [exec_read_of_bound hbound ⟨hmin, hmax⟩, bits_past_end 0 _ hend, advance_of_le hfits]
  · rw [exec_skip_of_bound hbound, advance_of_le hfits]
  · refine ⟨_, exec_crcchk_of_bound hbound start nbytes, ?_⟩
    rw [crcValue_getLsbD_valid, decide_eq_false hresidual]

end Sys2Proof.Machine
end

section
/-! Decoding and encoding are inverse (spec/30_encoding.md sections 2, 3, 5, 6 and 8): the fields of an encoded word are
the command's operands, and the fields of a word that decodes are all there is to it. -/

namespace Sys2Proof

open Laws.EncodedRow (rowOf)

/-! ### The fields of an encoded word -/

@[simp] theorem fieldN_packWord_packCount (op : BitVec 8) (a : BitVec 32) (n : BitVec 7) :
    fieldN (packWord op a (packCount n)) = n := by
  apply BitVec.eq_of_toNat_eq
  rw [toNat_fieldN, toNat_packWord, toNat_packCount]
  omega

section
variable (op : BitVec 8) (w0 w1 w2 w3 : BitVec 6) (add : Bool) (b : BitVec 24)

theorem toNat_packWord_packWidths :
    (packWord op (packWidths w0 w1 w2 w3 add) b).toNat
      = op.toNat * 2 ^ 56 + add.toNat * 2 ^ 48 + w3.toNat * 2 ^ 42 + w2.toNat * 2 ^ 36 + w1.toNat * 2 ^ 30
        + w0.toNat * 2 ^ 24 + b.toNat := by
  rw [toNat_packWord, toNat_packWidths]
  ring

/-- The four widths stand where format V puts them (30_encoding.md R52). -/
@[simp] theorem fieldW_packWidths :
    fieldW 0 (packWord op (packWidths w0 w1 w2 w3 add) b) = w0
      ∧ fieldW 1 (packWord op (packWidths w0 w1 w2 w3 add) b) = w1
      ∧ fieldW 2 (packWord op (packWidths w0 w1 w2 w3 add) b) = w2
      ∧ fieldW 3 (packWord op (packWidths w0 w1 w2 w3 add) b) = w3 := by
  have hadd := add.toNat_lt
  refine ⟨?_, ?_, ?_, ?_⟩ <;> apply BitVec.eq_of_toNat_eq <;> rw [toNat_fieldW, toNat_packWord_packWidths] <;> omega

@[simp] theorem fieldAdd_packWidths : fieldAdd (packWord op (packWidths w0 w1 w2 w3 add) b) = add := by
  have hadd := add.toNat_lt
  rw [Bool.eq_iff_iff, fieldAdd_iff, toNat_packWord_packWidths, ← Bool.toNat_eq_one]
  omega

end

/-- Reading the operands back from the encoded word gives the command (30_encoding.md R52). -/
theorem readOperands_encode (i : Instr) : readOperands (encode i) i = i := by
  cases i <;> simp [encode, readOperands]

/-- An encoded word is on its command's row (30_encoding.md R53). -/
theorem encode_match (i : Instr) : encode i &&& (rowOf i).mask = (rowOf i).pattern := by
  cases i with
  | bind len => exact Laws.EncodedRow.bind len
  | unbind => exact Laws.EncodedRow.unbind
  | read n => exact Laws.EncodedRow.read n
  | peek n => exact Laws.EncodedRow.peek n
  | skip n => exact Laws.EncodedRow.skip n
  | pos => exact Laws.EncodedRow.pos
  | align t => exact Laws.EncodedRow.align t
  | varf w0 w1 w2 w3 add => exact Laws.EncodedRow.varf w0 w1 w2 w3 add
  | crcchk start nbytes => exact Laws.EncodedRow.crcchk start nbytes

theorem decode_encode (i : Instr) : decode (encode i) = .ok i :=
  decode_eq_ok_iff.mpr ⟨encode_match i, readOperands_encode i⟩

/-- The byte decoder reads a stored word as the word decoder reads the word (30_encoding.md R62). -/
theorem decodeBytes_wordBytes_append {w : CmdWord} {i : Instr} (hdecode : decode w = .ok i) (rest : List Byte) :
    decodeBytes (wordBytes w ++ rest) = .ok (i, rest) := by
  simp only [wordBytes, List.cons_append, List.nil_append, decodeBytes, wordBytes_join, hdecode]

/-- Settles O5: an encoded word is on its command's row, and its fields are the operands. -/
theorem decodeInvertsEncode : Obligations.DecodeInvertsEncode :=
  fun i rest => ⟨decode_encode i, decodeBytes_wordBytes_append (decode_encode i) rest⟩

/-! ### The word of a decoded command -/

theorem toNat_fieldOp_of_decode {w : CmdWord} {i : Instr} (hdecode : decode w = .ok i) :
    w.toNat / 2 ^ 56 = (opOf i).toNat := by
  rw [← toNat_fieldOp, fieldOp_eq_opOf_of_match (match_of_decode hdecode)]

/-- A word is three fields side by side if they are its fields (30_encoding.md R51). -/
theorem packWord_eq_of_toNat {w : CmdWord} {op : BitVec 8} {a : BitVec 32} {b : BitVec 24}
    (hop : w.toNat / 2 ^ 56 = op.toNat) (ha : a.toNat = w.toNat / 2 ^ 24 % 2 ^ 32)
    (hb : b.toNat = w.toNat % 2 ^ 24) : packWord op a b = w := by
  apply BitVec.eq_of_toNat_eq
  rw [toNat_packWord]
  omega

/-- Formats L and A: an operand over zero bits. -/
theorem packWord_eq_of_low_zero {w : CmdWord} {op : BitVec 8} {a : BitVec 32} (hop : w.toNat / 2 ^ 56 = op.toNat)
    (hfields : a.toNat = w.toNat / 2 ^ 24 % 2 ^ 32 ∧ w.toNat % 2 ^ 24 = 0) : packWord op a 0#24 = w :=
  packWord_eq_of_toNat hop hfields.1 hfields.2.symm

/-- No operand: nothing but zero bits below `op`. -/
theorem packWord_eq_of_all_zero {w : CmdWord} {op : BitVec 8} (hop : w.toNat / 2 ^ 56 = op.toNat)
    (hzero : w.toNat % 2 ^ 56 = 0) : packWord op 0#32 0#24 = w :=
  packWord_eq_of_low_zero hop ⟨by rw [BitVec.toNat_ofNat]; omega, by omega⟩

/-- Format N: zero bits over a count. -/
theorem packWord_packCount_eq {w : CmdWord} {op : BitVec 8} {n : BitVec 7} (hop : w.toNat / 2 ^ 56 = op.toNat)
    (hfields : n.toNat = w.toNat % 2 ^ 7 ∧ w.toNat / 2 ^ 7 % 2 ^ 49 = 0) :
    packWord op 0#32 (packCount n) = w := by
  apply packWord_eq_of_toNat hop
  · rw [BitVec.toNat_ofNat]
    omega
  · rw [toNat_packCount]
    omega

/-- Settles O6: `op`, the operands and the zero runs of the format (O8) are all the bits of the word, so as numbers the
word and the encoding agree field by field. -/
theorem encodeInvertsDecode : Obligations.EncodeInvertsDecode := by
  intro w i hdecode
  have hop := toNat_fieldOp_of_decode hdecode
  have hfields := operandsAreTheFormatFields w i hdecode
  cases i with
  | bind len => exact packWord_eq_of_low_zero hop hfields
  | unbind => exact packWord_eq_of_all_zero hop hfields
  | read n => exact packWord_packCount_eq hop hfields
  | peek n => exact packWord_packCount_eq hop hfields
  | skip n => exact packWord_eq_of_low_zero hop hfields
  | pos => exact packWord_eq_of_all_zero hop hfields
  | align t => exact packWord_eq_of_low_zero hop hfields
  | varf w0 w1 w2 w3 add =>
    obtain ⟨h0, h1, h2, h3, hadd, hseven, hlow⟩ := hfields
    have hflag : add.toNat = w.toNat / 2 ^ 48 % 2 := by
      have hfield : fieldAdd w = add := Bool.eq_iff_iff.mpr ((fieldAdd_iff w).trans hadd.symm)
      rw [← hfield, fieldAdd, BitVec.getLsbD, Nat.toNat_testBit]
    apply packWord_eq_of_low_zero hop
    rw [toNat_packWidths]
    omega
  | crcchk start nbytes => exact packWord_eq_of_toNat hop hfields.1 hfields.2

/-! ### The words the spec writes out -/

/-- Settles O11: each of the words is decoded as written. -/
theorem writtenOutWordsDecode : Obligations.WrittenOutWordsDecode := by
  unfold Obligations.WrittenOutWordsDecode
  decide

end Sys2Proof
end

section
/-! What a step does (spec/30_encoding.md section 1, spec/70_reset_and_hazards.md section 2), what it keeps
(spec/10_state.md section 1), and runs of steps. -/

namespace Sys2Proof.Machine

/-! ### The step -/

/-- Everything a step can do: nothing, or one act of the host. -/
inductive StepResult (s : State) : State → Prop where
  | idle (hhost : s.host = []) : StepResult s s
  | rejected {w : CmdWord} {rest : List HostEvent} {why : DecodeError} (hhost : s.host = .command w :: rest)
      (hdecode : decode w = .error why) : StepResult s (faulted { s with host := rest } .eIllegal)
  | executed {w : CmdWord} {rest : List HostEvent} {i : Instr} {t : State} (hhost : s.host = .command w :: rest)
      (hdecode : decode w = .ok i) (hends : Ends i { s with host := rest } t) : StepResult s t
  | reset {rest : List HostEvent} (hhost : s.host = .reset :: rest) :
      StepResult s (applyReset { s with host := rest })
  | cutOff {w : CmdWord} {rest : List HostEvent} (hhost : s.host = .resetDuring w :: rest) :
      StepResult s (cutOff w { s with host := rest })
  | stored {addr : BitVec 29} {b : Byte} {rest : List HostEvent} (hhost : s.host = .store addr b :: rest) :
      StepResult s (hostStore addr b { s with host := rest })

/-- A step always ends in a next state (70_reset_and_hazards.md R183). -/
theorem exists_stepResult (s : State) : ∃ t, step s = .next t ∧ StepResult s t := by
  rcases hhost : s.host with _ | ⟨e, rest⟩
  · exact ⟨s, step_idle hhost, .idle hhost⟩
  · cases e with
    | command w =>
      cases hdecode : decode w with
      | error why => exact ⟨_, step_of_decode_error hhost hdecode, .rejected hhost hdecode⟩
      | ok i =>
        obtain ⟨t, hexec, hends⟩ := exec_cases i { s with host := rest }
        exact ⟨t, (step_of_decode_ok hhost hdecode).trans hexec, .executed hhost hdecode hends⟩
    | reset => exact ⟨_, step_reset hhost, .reset hhost⟩
    | resetDuring w => exact ⟨_, step_resetDuring hhost, .cutOff hhost⟩
    | store addr b => exact ⟨_, step_store hhost, .stored hhost⟩

theorem stepResult_of_step {s t : State} (hstep : step s = .next t) : StepResult s t := by
  obtain ⟨u, hu, hresult⟩ := exists_stepResult s
  rw [hstep] at hu
  cases hu
  exact hresult

theorem decode_of_decodeTableWord {n : Nat} {i : Instr} (hword : decodeTableWord 64 n = some i) :
    decode (tableWord 64 n) = .ok i := by
  cases hdecode : decode (tableWord 64 n) <;>
    simp_all [decodeTableWord, wordBytes, decodeBytes, wordBytes_join]

/-- Settles O12: `withFetchWord` puts a command word at the head of the host's list. -/
theorem stepRunsTheDecodedCommand : Obligations.StepRunsTheDecodedCommand := by
  refine ⟨fun s w rest i => step_of_decode_ok, fun s n i hword => ?_⟩
  exact step_of_decode_ok (s := s.withFetchWord 64 n) rfl (decode_of_decodeTableWord hword)

/-- Settles O13: the store goes through `memSet`, which is seen at its own address only. -/
theorem hostStoresChangeOneByte : Obligations.HostStoresChangeOneByte := by
  intro s
  refine ⟨step_idle, fun addr b rest hwf hhost => ⟨_, step_store hhost, rfl, rfl, rfl, ?_, fun a hne => ?_⟩⟩
  · exact memGet_memSet_same addr.toNat b hwf
  · exact memGet_memSet_ne s.mem b hne

/-- However a command ends, it has given one response, with value 0 if it is a fault (30_encoding.md R60). -/
theorem Ends.one_response {i : Instr} {s t : State} (hends : Ends i s t) :
    ∃ st v, t.responses = s.responses ++ [⟨st, v⟩] ∧ (st ≠ .ok → v = 0#64) := by
  rcases hends with ⟨f, -, -, rfl⟩ | hcompleted
  · exact ⟨f, 0#64, rfl, fun _ => rfl⟩
  · obtain ⟨v, hv⟩ := hcompleted.responses
    exact ⟨.ok, v, hv, fun hfault => absurd rfl hfault⟩

/-- Settles O15: a word is rejected or ends as a command, with one response either way; the cut-off response is one or
none. -/
theorem everyCommandGetsOneResponse : Obligations.EveryCommandGetsOneResponse := by
  intro s t e rest he hstep
  cases stepResult_of_step hstep with
  | idle hhost => cases he.symm.trans hhost
  | rejected hhost hdecode =>
    cases he.symm.trans hhost
    exact ⟨.eIllegal, 0#64, rfl, fun _ => rfl⟩
  | executed hhost hdecode hends =>
    cases he.symm.trans hhost
    exact hends.one_response
  | reset hhost =>
    cases he.symm.trans hhost
    rfl
  | cutOff hhost =>
    cases he.symm.trans hhost
    rw [cutOff_responses]
    cases Config.cutOffResponse s.tick with
    | none => exact .inl (List.append_nil _)
    | some r => exact .inr ⟨r, rfl⟩
  | stored hhost =>
    cases he.symm.trans hhost
    rfl

/-- Settles O40: `platformStep` puts the next state of the machine alone at the index it was given. -/
theorem instancesAreIndependent : Obligations.InstancesAreIndependent := by
  intro p k s hk
  obtain ⟨t, hstep, -⟩ := exists_stepResult s
  obtain ⟨hlt, -⟩ := List.getElem?_eq_some_iff.mp hk
  refine ⟨⟨p.instances.set k t⟩, t, ?_, hstep, List.getElem?_set_self hlt, List.length_set, fun j hne => ?_⟩
  · rw [platformStep, hk]
    simp only [hstep]
  · exact List.getElem?_set_ne hne.symm

/-! ### The invariant -/

/-- A command that does not start or end a binding needs the slice (60_exceptions.md R163). -/
theorem needsSlice_of_not_rebinds {i : Instr} (hrebinds : rebinds i = false) : needsSlice i = true := by
  cases i with
  | bind len => cases hrebinds
  | unbind => cases hrebinds
  | read n => rfl
  | peek n => rfl
  | skip n => rfl
  | pos => rfl
  | align t => rfl
  | varf w0 w1 w2 w3 add => rfl
  | crcchk start nbytes => rfl

/-- A command that completes keeps the invariant: unbound, it can only have been BIND or UNBIND. -/
theorem Completed.inv {i : Instr} {s t : State} (h : Completed i s t) (hinv : s.Inv) : t.Inv := by
  obtain ⟨hwf, -, hdoubt⟩ := hinv
  refine ⟨h.mem ▸ hwf, ?_⟩
  cases hrebinds : rebinds i with
  | false =>
    obtain ⟨hbound, hlen, hsuperseded, -⟩ := h.keeps hrebinds
    have hready := h.bound (needsSlice_of_not_rebinds hrebinds)
    rw [hbound, hready, hlen, hsuperseded]
    exact ⟨nofun, hdoubt⟩
  | true =>
    obtain ⟨hempty, hzero⟩ := h.fresh hrebinds
    rw [hempty]
    exact ⟨fun hunbound => ⟨(hzero hunbound).1, (hzero hunbound).2, rfl⟩, nofun⟩

theorem Ends.inv {i : Instr} {s t : State} (h : Ends i s t) (hinv : s.Inv) : t.Inv := by
  rcases h with ⟨f, -, -, rfl⟩ | hcompleted
  · exact hinv
  · exact hcompleted.inv hinv

/-- Nothing is bound after a reset and nothing of a slice is in doubt. -/
theorem inv_applyReset {s : State} (hwf : Memory.wf s.mem) : (applyReset s).Inv :=
  ⟨hwf, fun _ => ⟨rfl, rfl, rfl⟩, nofun⟩

/-- A store puts its byte in doubt only while it lies in the bound slice. -/
theorem inv_hostStore {s : State} (addr : BitVec 29) (b : Byte) (hinv : s.Inv) : (hostStore addr b s).Inv := by
  obtain ⟨hwf, hzero, hdoubt⟩ := hinv
  refine ⟨memSet_wf addr.toNat b hwf, fun hunbound => ?_, fun c hc => ?_⟩
  · rw [hostStore_regs] at hunbound
    simpa [hostStore, hunbound] using hzero hunbound
  · rw [hostStore] at hc
    split at hc
    next hchanged =>
      rcases List.mem_cons.mp hc with rfl | hold
      · exact hchanged.2.1
      · exact hdoubt c hold
    next => exact hdoubt c hc

/-- Settles O59: each act of the host keeps the invariant. -/
theorem stepsKeepTheUnboundRegistersZero : Obligations.StepsKeepTheUnboundRegistersZero := by
  intro s t hinv hstep
  cases stepResult_of_step hstep with
  | idle => exact hinv
  | rejected => exact hinv
  | executed hhost hdecode hends => exact hends.inv hinv
  | reset => exact inv_applyReset hinv.1
  | cutOff => exact inv_applyReset hinv.1
  | stored => exact inv_hostStore _ _ hinv

/-- Settles O60: the reset state is a reset of itself, over memory in canonical form. -/
theorem resetStateMeetsTheInvariant : Obligations.ResetStateMeetsTheInvariant :=
  inv_applyReset (s := State.reset) reset_mem_wf

/-! ### The cursor along a run -/

/-- The binding of `s` stands in `t`, and the cursor has not gone back (40_bitreader.md R80). -/
structure CursorForward (s t : State) : Prop where
  pos : s.regs.pos.toNat ≤ t.regs.pos.toNat
  bound : t.regs.bound = s.regs.bound
  len : t.regs.len = s.regs.len

theorem CursorForward.refl {s : State} : CursorForward s s := ⟨le_rfl, Eq.refl _, Eq.refl _⟩

theorem CursorForward.trans {s t u : State} (h : CursorForward s t) (h' : CursorForward t u) : CursorForward s u :=
  ⟨h.pos.trans h'.pos, h'.bound.trans h.bound, h'.len.trans h.len⟩

theorem Ends.cursorForward {i : Instr} {s t : State} (h : Ends i s t) (hrebinds : rebinds i = false) :
    CursorForward s t := by
  rcases h with ⟨f, -, -, rfl⟩ | hcompleted
  · exact ⟨le_rfl, rfl, rfl⟩
  · obtain ⟨hbound, hlen, -, hpos⟩ := hcompleted.keeps hrebinds
    exact ⟨hpos, hbound, hlen⟩

/-- Only a command moves the cursor, and none but BIND and UNBIND moves it back; a reset is no such act. -/
theorem StepResult.cursorForward {s t : State} (h : StepResult s t)
    (hrebinds : ∀ w rest, s.host = .command w :: rest → ∀ i, decode w = .ok i → rebinds i = false)
    (hreset : ∀ rest, s.host ≠ .reset :: rest) (hduring : ∀ w rest, s.host ≠ .resetDuring w :: rest) :
    CursorForward s t := by
  cases h with
  | idle => exact .refl
  | rejected => exact ⟨le_rfl, rfl, rfl⟩
  | executed hhost hdecode hends =>
    obtain ⟨hpos, hbound, hlen⟩ := hends.cursorForward (hrebinds _ _ hhost _ hdecode)
    exact ⟨hpos, hbound, hlen⟩
  | reset hhost => exact absurd hhost (hreset _)
  | cutOff hhost => exact absurd hhost (hduring _ _)
  | stored => exact ⟨le_rfl, rfl, rfl⟩

/-- Settles O44: the step's result is one that `StepResult.cursorForward` speaks of. -/
theorem cursorNeverGoesBack : Obligations.CursorNeverGoesBack := by
  intro s t hstep hrebinds hreset hduring
  obtain ⟨hpos, hbound, hlen⟩ := (stepResult_of_step hstep).cursorForward hrebinds hreset hduring
  exact ⟨hpos, hbound, hlen⟩

theorem Ends.host_eq {i : Instr} {s t : State} (h : Ends i s t) : t.host = s.host := by
  rcases h with ⟨f, -, -, rfl⟩ | hcompleted
  · exact raise_host f s
  · exact hcompleted.host

/-- A step takes the first act off the host's list (log entry 1). -/
theorem step_host {s t : State} (hstep : step s = .next t) : t.host = s.host.tail := by
  cases stepResult_of_step hstep with
  | idle hhost => rw [hhost, List.tail_nil]
  | rejected hhost => rw [hhost]; rfl
  | executed hhost hdecode hends => rw [hhost, hends.host_eq]; rfl
  | reset hhost => rw [hhost]; rfl
  | cutOff hhost => rw [hhost]; rfl
  | stored hhost => rw [hhost]; rfl

theorem run_zero (s : State) : Host.Core.run Sys2Proof.core 0 s = .next s := rfl

theorem run_succ {s t : State} (hstep : step s = .next t) (k : Nat) :
    Host.Core.run Sys2Proof.core (k + 1) s = Host.Core.run Sys2Proof.core k t := by
  simp only [Host.Core.run, show Sys2Proof.core.step s = .next t from hstep]

/-- Settles O14, by induction on the number of steps: every step has a next state. -/
theorem runsNeverStop : Obligations.RunsNeverStop := by
  intro k
  induction k with
  | zero => exact fun s => ⟨s, run_zero s⟩
  | succ k ih =>
    intro s
    obtain ⟨t, hstep, -⟩ := exists_stepResult s
    rw [run_succ hstep]
    exact ih t

theorem run_add {j k : Nat} {s t : State} (hrun : Host.Core.run Sys2Proof.core j s = .next t) :
    Host.Core.run Sys2Proof.core (j + k) s = Host.Core.run Sys2Proof.core k t := by
  induction j generalizing s with
  | zero =>
    cases hrun
    rw [Nat.zero_add]
  | succ j ih =>
    obtain ⟨u, hstep, -⟩ := exists_stepResult s
    rw [run_succ hstep] at hrun
    rw [Nat.succ_add_eq_add_succ, Nat.add_succ, run_succ hstep, ih hrun]

/-- Every act on the host's list is a command word, and none of them a BIND or an UNBIND. -/
def KeepsBinding (host : List HostEvent) : Prop :=
  ∀ e ∈ host, ∃ w, e = .command w ∧ fieldOp w ≠ 0x01#8 ∧ fieldOp w ≠ 0x02#8

theorem KeepsBinding.step {s t : State} (h : KeepsBinding s.host) (hstep : step s = .next t) :
    KeepsBinding t.host := by
  rw [step_host hstep]
  exact fun e he => h e (List.mem_of_mem_tail he)

theorem rebinds_of_fieldOp {w : CmdWord} {i : Instr} (hdecode : decode w = .ok i) (hbind : fieldOp w ≠ 0x01#8)
    (hunbind : fieldOp w ≠ 0x02#8) : rebinds i = false := by
  have hop : fieldOp w = opOf i := fieldOp_eq_opOf_of_match (match_of_decode hdecode)
  cases i with
  | bind len => exact absurd hop hbind
  | unbind => exact absurd hop hunbind
  | read n => rfl
  | peek n => rfl
  | skip n => rfl
  | pos => rfl
  | align t => rfl
  | varf w0 w1 w2 w3 add => rfl
  | crcchk start nbytes => rfl

theorem cursorForward_step {s t : State} (h : KeepsBinding s.host) (hstep : step s = .next t) :
    CursorForward s t := by
  have hhead : ∀ {e rest}, s.host = e :: rest → ∃ w, e = .command w ∧ fieldOp w ≠ 0x01#8 ∧ fieldOp w ≠ 0x02#8 :=
    fun hhost => h _ (by simp [hhost])
  refine (stepResult_of_step hstep).cursorForward ?_ ?_ ?_
  · intro w rest hhost i hdecode
    obtain ⟨w', hw, hbind, hunbind⟩ := hhead hhost
    cases hw
    exact rebinds_of_fieldOp hdecode hbind hunbind
  · intro rest hhost
    obtain ⟨w', hw, -⟩ := hhead hhost
    cases hw
  · intro w rest hhost
    obtain ⟨w', hw, -⟩ := hhead hhost
    cases hw

theorem cursorForward_run {k : Nat} {s t : State} (h : KeepsBinding s.host)
    (hrun : Host.Core.run Sys2Proof.core k s = .next t) : KeepsBinding t.host ∧ CursorForward s t := by
  induction k generalizing s with
  | zero =>
    cases hrun
    exact ⟨h, .refl⟩
  | succ k ih =>
    obtain ⟨u, hstep, -⟩ := exists_stepResult s
    rw [run_succ hstep] at hrun
    obtain ⟨hhost, hforward⟩ := ih (h.step hstep) hrun
    exact ⟨hhost, (cursorForward_step h hstep).trans hforward⟩

/-- Settles O45: from the state after `j` steps the cursor only moves forward, in the same slice. -/
theorem endTestCoversTheWholeRun : Obligations.EndTestCoversTheWholeRun := by
  intro j k s t u hhost hfirst hall hinside
  rw [run_add hfirst] at hall
  have hkeeps : KeepsBinding s.host := hhost
  obtain ⟨hkeeps', -⟩ := cursorForward_run hkeeps hfirst
  obtain ⟨-, hforward⟩ := cursorForward_run hkeeps' hall
  rw [hforward.len] at hinside
  exact hforward.pos.trans hinside

end Sys2Proof.Machine
end

section
/-! Frames and isolation (spec/10_state.md sections 1 and 3, spec/20_memory.md section 4): what a command leaves
unchanged, and what it does not see. Two states that the block sees alike end alike (`endsAlike_exec`); where they differ
in what one command alone does not look at, that command's checks are followed once on both. -/

namespace Sys2Proof.Machine

/-! ### What a command leaves unchanged -/

/-- Settles O32: a fault changes nothing but the responses, and a completed command keeps what `Completed` lists. -/
theorem commandsKeepWhatTheyDoNotWrite : Obligations.CommandsKeepWhatTheyDoNotWrite := by
  intro i s t hexec
  have hends := exec_ends hexec
  have hmem : ∀ a, memGet t.mem a = memGet s.mem a := fun a => by rw [hends.mem_eq]
  rcases hends with ⟨f, -, -, rfl⟩ | hcompleted
  · exact ⟨hmem, rfl, ⟨_, rfl⟩, fun _ => ⟨rfl, rfl, rfl⟩, fun _ => rfl, fun _ => rfl⟩
  · obtain ⟨v, hresponse⟩ := hcompleted.responses
    refine ⟨hmem, hcompleted.host, ⟨_, hresponse⟩, fun hrebinds => ?_, hcompleted.crc, hcompleted.pos⟩
    obtain ⟨hbound, hlen, hsuperseded, -⟩ := hcompleted.keeps hrebinds
    exact ⟨hbound, hlen, hsuperseded⟩

/-! ### Other bytes -/

/-- Only BIND and UNBIND, when they complete, change what is held of a changed slice (20_memory.md R38). -/
theorem Ends.superseded_eq {i : Instr} {s t : State} {r : Response} (h : Ends i s t)
    (hr : t.responses = s.responses ++ [r]) :
    t.superseded = if rebinds i = true ∧ r.status = .ok then [] else s.superseded := by
  have hanswers : answers s t r.status := ⟨r.value, hr⟩
  rcases h with ⟨f, hfault, -, rfl⟩ | hcompleted
  · rw [← answers_unique (faulted_answers s f) hanswers, if_neg fun h => hfault h.2, raise_superseded]
  · rw [← answers_unique hcompleted.responses hanswers]
    cases hrebinds : rebinds i with
    | false => exact (hcompleted.keeps hrebinds).2.2.1
    | true => exact (hcompleted.fresh hrebinds).1

/-- Ends that are alike agree on what is held of a changed slice as well. -/
theorem superseded_eq_of_endsAlike {i : Instr} {s s' t t' : State} (halike : EndsAlike s s' t t')
    (ht : Ends i s t) (ht' : Ends i s' t') (hsuperseded : s'.superseded = s.superseded) :
    t'.superseded = t.superseded := by
  obtain ⟨-, r, hr, hr'⟩ := halike
  rw [ht'.superseded_eq hr', ht.superseded_eq hr, hsuperseded]

/-- A bit reads the one byte that holds it (20_memory.md R31). -/
theorem bit_of_memGet_eq {s : State} {m : Memory} {p : Nat} (h : memGet m (p / 8) = memGet s.mem (p / 8))
    (look : Nat) : bit { s with mem := m } look p = bit s look p := by
  simp only [bit, memRead, olderBytes, h]

/-- No command sees a byte outside the slice (20_memory.md R37). -/
theorem seenAlike_of_slice_eq {s : State} {m : Memory}
    (h : ∀ a, a < s.regs.len.toNat → memGet m a = memGet s.mem a) : SeenAlike s { s with mem := m } := by
  refine ⟨rfl, fun look p => ?_⟩
  by_cases hp : 8 * s.regs.len.toNat ≤ p
  · exact (bit_past_end (s := { s with mem := m }) look hp).trans (bit_past_end look hp).symm
  · exact bit_of_memGet_eq (h _ (by omega)) look

section
variable {s : State} {m : Memory} {o : List Host.Cell} {k k' : State}

theorem endsAlike_ite {s s' a a' b b' : State} (c : Prop) [Decidable c] (ha : EndsAlike s s' a a')
    (hb : EndsAlike s s' b b') : EndsAlike s s' (if c then a else b) (if c then a' else b') := by
  split
  · exact ha
  · exact hb

theorem raise_alike (f : Status) :
    EndsAlike s { s with mem := m, superseded := o } (raise f s) (raise f { s with mem := m, superseded := o }) :=
  ⟨rfl, _, rfl, rfl⟩

theorem respond_alike (v : Value) :
    EndsAlike s { s with mem := m, superseded := o } (respond v s)
      (respond v { s with mem := m, superseded := o }) :=
  ⟨rfl, _, rfl, rfl⟩

theorem respond_setPos_alike (v : Value) (p : BitVec 32) :
    EndsAlike s { s with mem := m, superseded := o } (respond v (setPos p s))
      (respond v (setPos p { s with mem := m, superseded := o })) :=
  ⟨rfl, _, rfl, rfl⟩

theorem needSlice_alike (hk : EndsAlike s { s with mem := m, superseded := o } k k') :
    EndsAlike s { s with mem := m, superseded := o } (needSlice s k)
      (needSlice { s with mem := m, superseded := o } k') :=
  endsAlike_ite _ hk (raise_alike _)

theorem needRange_alike (legal : Bool) (hk : EndsAlike s { s with mem := m, superseded := o } k k') :
    EndsAlike s { s with mem := m, superseded := o } (needRange legal s k)
      (needRange legal { s with mem := m, superseded := o } k') :=
  endsAlike_ite _ hk (raise_alike _)

theorem advance_alike (n : Nat) (v : Value) :
    EndsAlike s { s with mem := m, superseded := o } (advance n v s)
      (advance n v { s with mem := m, superseded := o }) :=
  endsAlike_ite _ (raise_alike _) (respond_setPos_alike _ _)

end

/-- The five commands that read no byte do the same over any bytes (10_state.md R21). -/
theorem endsAlike_exec_of_streamless {i : Instr} (hstreamless : readsStream i = false) (s : State) (m : Memory)
    (o : List Host.Cell) :
    ∃ t t', exec i s = .next t ∧ exec i { s with mem := m, superseded := o } = .next t'
      ∧ EndsAlike s { s with mem := m, superseded := o } t t' := by
  cases i with
  | bind len => exact ⟨_, _, rfl, rfl, needRange_alike _ ⟨rfl, _, rfl, rfl⟩⟩
  | unbind => exact ⟨_, _, rfl, rfl, rfl, _, rfl, rfl⟩
  | skip n => exact ⟨_, _, rfl, rfl, needSlice_alike (advance_alike _ _)⟩
  | pos => exact ⟨_, _, rfl, rfl, needSlice_alike (respond_alike _)⟩
  | align t =>
    exact ⟨_, _, rfl, rfl, needSlice_alike (endsAlike_ite _ (raise_alike _) (respond_setPos_alike _ _))⟩
  | read n => cases hstreamless
  | peek n => cases hstreamless
  | varf w0 w1 w2 w3 add => cases hstreamless
  | crcchk start nbytes => cases hstreamless

/-- Ends that are alike have the same responses, if the states they began in had. -/
theorem responses_eq_of_endsAlike {s s' t t' : State} (halike : EndsAlike s s' t t')
    (hresponses : s'.responses = s.responses) : t'.responses = t.responses := by
  obtain ⟨-, r, hr, hr'⟩ := halike
  rw [hr, hr', hresponses]

/-- Settles O35: the checks of these five commands and what they write are made of the registers and the operand. -/
theorem streamlessCommandsIgnoreMemory : Obligations.StreamlessCommandsIgnoreMemory := by
  intro i s m o hstreamless
  obtain ⟨t, u, ht, hu, halike⟩ := endsAlike_exec_of_streamless hstreamless s m o
  exact ⟨t, u, ht, hu, halike.1, responses_eq_of_endsAlike halike rfl⟩

/-- A command that does not need a slice does not read one. -/
theorem streamless_of_not_needsSlice {i : Instr} (h : ¬ needsSlice i = true) : readsStream i = false := by
  cases i with
  | bind len => rfl
  | unbind => rfl
  | read n => exact absurd rfl h
  | peek n => exact absurd rfl h
  | skip n => exact absurd rfl h
  | pos => exact absurd rfl h
  | align t => exact absurd rfl h
  | varf w0 w1 w2 w3 add => exact absurd rfl h
  | crcchk start nbytes => exact absurd rfl h

/-- While unbound a command either faults at once or reads nothing. -/
theorem endsAlike_exec_of_unbound {s : State} (hunbound : s.regs.bound = false) (i : Instr) (m : Memory) :
    ∃ t t', exec i s = .next t ∧ exec i { s with mem := m } = .next t' ∧ EndsAlike s { s with mem := m } t t' := by
  by_cases hneeds : needsSlice i = true
  · exact ⟨_, _, exec_of_unbound hneeds hunbound, exec_of_unbound hneeds hunbound, rfl, _, rfl, rfl⟩
  · exact endsAlike_exec_of_streamless (streamless_of_not_needsSlice hneeds) s m s.superseded

/-- Settles O34: bound, the two states are seen alike; unbound, no byte is looked at. -/
theorem commandsSeeOnlyTheBoundSlice : Obligations.CommandsSeeOnlyTheBoundSlice := by
  intro i s m hslice
  have hends : ∃ t t', exec i s = .next t ∧ exec i { s with mem := m } = .next t'
      ∧ EndsAlike s { s with mem := m } t t' := by
    cases hbound : s.regs.bound with
    | true => exact endsAlike_exec (seenAlike_of_slice_eq (hslice hbound)) i
    | false => exact endsAlike_exec_of_unbound hbound i m
  obtain ⟨t, u, ht, hu, halike⟩ := hends
  have hhost : u.host = s.host := (exec_ends hu).host_eq
  exact ⟨t, u, ht, hu, halike.1, responses_eq_of_endsAlike halike rfl,
    superseded_eq_of_endsAlike halike (exec_ends ht) (exec_ends hu) rfl, hhost.trans (exec_ends ht).host_eq.symm⟩

/-- A run of bits reads the bytes from that of its first bit to that of its last (20_memory.md section 3). -/
theorem bits_of_bytes_eq {s : State} {m : Memory} {p n : Nat}
    (h : ∀ a, p / 8 ≤ a → a ≤ (p + n - 1) / 8 → memGet m a = memGet s.mem a) (look : Nat) :
    bits { s with mem := m } look p n = bits s look p n :=
  bits_congr fun i _ => bit_of_memGet_eq (h _ (Nat.div_le_div_right (by omega))
    (Nat.div_le_div_right (by omega))) look

/-- Settles O36: both commands see the stream through one run of bits only. -/
theorem readsTouchOnlyTheirBytes : Obligations.ReadsTouchOnlyTheirBytes := by
  intro n s m _ hbytes
  have hbits := bits_of_bytes_eq hbytes 0
  constructor
  · have halike := needSlice_alike (needRange_alike (s := s) (m := m) (o := s.superseded) (countLegal n)
      (advance_alike n.toNat (BitVec.ofNat 64 (bits s 0 s.regs.pos.toNat n.toNat))))
    exact ⟨_, _, rfl, by rw [exec, execRead, hbits], halike.1, responses_eq_of_endsAlike halike rfl⟩
  · have halike := needSlice_alike (needRange_alike (s := s) (m := m) (o := s.superseded) (countLegal n)
      (respond_alike (BitVec.ofNat 64 (bits s 0 s.regs.pos.toNat n.toNat))))
    exact ⟨_, _, rfl, by rw [exec, execPeek, hbits], halike.1, responses_eq_of_endsAlike halike rfl⟩

/-! ### Other registers -/

section
variable (c : BitVec 16) (s k : State)

/-- No bit of the stream depends on `crc`. -/
theorem bits_setCrc (look p n : Nat) : bits (setCrc c s) look p n = bits s look p n :=
  bits_congr fun _ _ => rfl

theorem needSlice_setCrc : needSlice (setCrc c s) (setCrc c k) = setCrc c (needSlice s k) :=
  (apply_ite (setCrc c) (s.regs.bound = true) k (raise .eNull s)).symm

theorem needRange_setCrc (legal : Bool) :
    needRange legal (setCrc c s) (setCrc c k) = setCrc c (needRange legal s k) :=
  (apply_ite (setCrc c) (legal = true) k (raise .eRange s)).symm

theorem advance_setCrc (n : Nat) (v : Value) : advance n v (setCrc c s) = setCrc c (advance n v s) :=
  (apply_ite (setCrc c) (s.regs.pos.toNat + n > Config.posMax) (raise .eRange s)
    (respond v (setPos (BitVec.ofNat 32 (s.regs.pos.toNat + n)) s))).symm

theorem decodeVarfield_setCrc (W : Nat → Nat) (add : Bool) :
    decodeVarfield W add (setCrc c s) = setCrc c (decodeVarfield W add s) := by
  obtain ⟨index, used, hrow⟩ := exists_prefixRow s
  have hrow' : prefixRow (bits (setCrc c s) 0 (setCrc c s).regs.pos.toNat 3) index used := by
    rwa [bits_setCrc]
  rw [decodeVarfield_of_prefixRow hrow, decodeVarfield_of_prefixRow hrow', ← advance_setCrc]
  simp only [varfValue, bits_setCrc, setCrc_regs]

end

/-- A command but CRCCHK carries `crc` along unseen; a CRCCHK on a bound slice overwrites it. -/
theorem exec_setCrc (c : BitVec 16) (i : Instr) (s : State) :
    ∃ t, exec i s = .next t ∧ (exec i (setCrc c s) = .next (setCrc c t) ∨ exec i (setCrc c s) = .next t) := by
  cases i with
  | bind len =>
    exact ⟨_, rfl, .inl (congrArg Host.Outcome.next
      (needRange_setCrc c s (respond 0#64 (bindSlice (len.setWidth 29) s)) _))⟩
  | unbind => exact ⟨_, rfl, .inl rfl⟩
  | read n =>
    refine ⟨_, rfl, .inl ?_⟩
    rw [exec, execRead, bits_setCrc, advance_setCrc, needRange_setCrc, needSlice_setCrc]
    rfl
  | peek n =>
    refine ⟨_, rfl, .inl ?_⟩
    rw [exec, execPeek, bits_setCrc, ← needSlice_setCrc, ← needRange_setCrc]
    rfl
  | skip n =>
    refine ⟨_, rfl, .inl ?_⟩
    rw [exec, execSkip, advance_setCrc, needSlice_setCrc]
  | pos =>
    exact ⟨_, rfl, .inl (congrArg Host.Outcome.next
      (needSlice_setCrc c s (respond (s.regs.pos.setWidth 64) s)))⟩
  | align t =>
    refine ⟨_, rfl, .inl (congrArg Host.Outcome.next ?_)⟩
    rw [← needSlice_setCrc, apply_ite (setCrc c)]
    rfl
  | varf w0 w1 w2 w3 add =>
    refine ⟨_, rfl, .inl ?_⟩
    rw [exec, execVarf, decodeVarfield_setCrc, needRange_setCrc, needSlice_setCrc]
  | crcchk start nbytes =>
    have hwindow : crcWindow (setCrc c s) start.toNat nbytes.toNat = crcWindow s start.toNat nbytes.toNat :=
      crcNibbles_congr _ fun _ _ => rfl
    cases hbound : s.regs.bound with
    | true =>
      refine ⟨_, exec_crcchk_of_bound hbound start nbytes, .inr ?_⟩
      rw [exec_crcchk_of_bound (s := setCrc c s) hbound, hwindow]
      rfl
    | false =>
      exact ⟨_, exec_of_unbound rfl hbound, .inl (exec_of_unbound (s := setCrc c s) rfl hbound)⟩

/-- Settles O37: writing `crc` before a command is writing it after, or nothing. -/
theorem crcBetweenCommandsIsUnobservable : Obligations.CrcBetweenCommandsIsUnobservable := by
  intro i s c
  obtain ⟨t, ht, hcarried | hoverwritten⟩ := exec_setCrc c i s
  · exact ⟨t, _, ht, hcarried, rfl, rfl, rfl, rfl⟩
  · exact ⟨t, _, ht, hoverwritten, rfl, rfl, rfl, rfl⟩

/-- Settles O38: the window is walked from the operand, and the cursor is in no bit of it. -/
theorem crcchkIgnoresTheCursor : Obligations.CrcchkIgnoresTheCursor := by
  intro start nbytes s p
  have hwindow : crcWindow (setPos p s) start.toNat nbytes.toNat = crcWindow s start.toNat nbytes.toNat :=
    crcNibbles_congr _ fun _ _ => rfl
  cases hbound : s.regs.bound with
  | true =>
    refine ⟨_, exec_crcchk_of_bound hbound start nbytes, rfl, ?_⟩
    exact (exec_crcchk_of_bound (s := setPos p s) hbound start nbytes).trans (by rw [hwindow]; rfl)
  | false =>
    exact ⟨_, exec_of_unbound rfl hbound, rfl, exec_of_unbound (s := setPos p s) rfl hbound⟩

/-! ### A slice changed under its binding -/

/-- A bit inside the slice is a bit of the byte in place or of an older one (20_memory.md R38). -/
theorem exists_byte_of_bit {s : State} (look : Nat) {p : Nat} (hp : p < 8 * s.regs.len.toNat) :
    ∃ c, (c = memGet s.mem (p / 8) ∨ c ∈ olderBytes s (p / 8))
      ∧ bit s look p = (c.toNat >>> (7 - p % 8)) % 2 :=
  ⟨_, memRead_cases s look p (p / 8), if_neg (Nat.not_le.mpr hp)⟩

theorem olderBytes_hostStore_ne (addr : BitVec 29) (b : Byte) (s : State) {a : Nat} (hne : a ≠ addr.toNat) :
    olderBytes (hostStore addr b s) a = olderBytes s a := by
  rw [olderBytes_hostStore, if_neg fun h => hne h.2]

/-- At its own address a store adds at most the byte it replaces. -/
theorem mem_olderBytes_hostStore {addr : BitVec 29} {b c : Byte} {s : State}
    (hc : c ∈ olderBytes (hostStore addr b s) addr.toNat) :
    c = memGet s.mem addr.toNat ∨ c ∈ olderBytes s addr.toNat := by
  rw [olderBytes_hostStore] at hc
  split at hc
  · exact List.mem_cons.mp hc
  · exact .inr hc

theorem bit_hostStore_ne (addr : BitVec 29) (b : Byte) (s : State) (look : Nat) {p : Nat}
    (hne : p / 8 ≠ addr.toNat) : bit (hostStore addr b s) look p = bit s look p := by
  simp only [bit, memRead, olderBytes_hostStore_ne addr b s hne, hostStore_mem, hostStore_regs, hostStore_tick,
    memGet_memSet_ne s.mem b hne]

/-- Settles O39: `MemRead` returns one of the bytes held, and a store changes what is held at its address only. -/
theorem changedSliceReadsOldOrNew : Obligations.ChangedSliceReadsOldOrNew := by
  refine ⟨fun s look p => exists_byte_of_bit look, fun s addr b rest hwf hhost => ?_,
    fun s t len hlen hexec => ?_, fun s t hexec => ?_, fun s t rest hhost hstep => ?_⟩
  · refine ⟨_, step_store hhost, rfl, fun look p => bit_hostStore_ne addr b _ look,
      fun a => olderBytes_hostStore_ne addr b _, fun c => mem_olderBytes_hostStore, fun look p hp hin => ?_⟩
    obtain ⟨c, hc, hbit⟩ := exists_byte_of_bit (s := hostStore addr b { s with host := rest }) look hin
    rw [hp, hostStore_mem, memGet_memSet_same addr.toNat b hwf] at hc
    exact ⟨c, hc.imp_right mem_olderBytes_hostStore, hbit⟩
  · rw [exec_bind_of_le hlen] at hexec
    cases hexec
    rfl
  · cases hexec
    rfl
  · rw [step_reset hhost] at hstep
    cases hstep
    rfl

end Sys2Proof.Machine
end

section
/-! The stream and the cursor (spec/20_memory.md section 1, spec/40_bitreader.md sections 4 and 5): the splitting law of
`bits`, a kept slice seen again after an answer, and the laws that relate the cursor commands to one another. -/

namespace Sys2Proof.Machine

/-! ### Runs of bits -/

/-- The splitting law (20_memory.md R32). -/
theorem bits_add (s : State) (look p n m : Nat) :
    bits s look p (n + m) = bits s look p n * 2 ^ m + bits s look (p + n) m := by
  induction m with
  | zero => simp
  | succ m ih =>
    rw [← Nat.add_assoc, bits_succ, bits_succ, ih, Nat.pow_succ, Nat.add_assoc p n m]
    ring

/-- The byte of a kept slice at an address, 0 past the end (20_memory.md R31). -/
def sliceByte (s : State) (a : Nat) : Nat := if a < s.regs.len.toNat then (memGet s.mem a).toNat else 0

theorem sliceByte_lt (s : State) (a : Nat) : sliceByte s a < 2 ^ 8 := by
  unfold sliceByte
  split <;> omega

/-- Bit `i` of a byte, the most significant first (20_memory.md R31). -/
theorem bit_of_sliceByte {s : State} (hkept : sliceKept s) (look a : Nat) {i : Nat} (hi : i < 8) :
    bit s look (8 * a + i) = sliceByte s a / 2 ^ (7 - i) % 2 := by
  have hbyte : (8 * a + i) / 8 = a := by omega
  have hoffset : (8 * a + i) % 8 = i := by omega
  rw [bit, memRead_kept hkept, hbyte, hoffset, Nat.shiftRight_eq_div_pow, sliceByte]
  by_cases ha : a < s.regs.len.toNat
  · rw [if_neg (by omega), if_pos ha]
  · rw [if_pos (by omega), if_neg ha, Nat.zero_div, Nat.zero_mod]

/-- The first bits of a byte are its most significant ones, by induction on how many. -/
theorem bits_of_sliceByte {s : State} (hkept : sliceKept s) (look a : Nat) {i : Nat} (hi : i ≤ 8) :
    bits s look (8 * a) i = sliceByte s a / 2 ^ (8 - i) := by
  induction i with
  | zero => exact (Nat.div_eq_of_lt (sliceByte_lt s a)).symm
  | succ i ih =>
    have hhalf : sliceByte s a / 2 ^ (8 - i) = sliceByte s a / 2 ^ (7 - i) / 2 := by
      rw [Nat.div_div_eq_div_mul, ← Nat.pow_succ, show (7 - i).succ = 8 - i by omega]
    rw [bits_succ, ih (by omega), bit_of_sliceByte hkept look a hi, hhalf, show 8 - (i + 1) = 7 - i by omega]
    omega

/-- Whole bytes of a kept slice are a big-endian integer, by induction on their number. -/
theorem bits_of_bytes {s : State} (hkept : sliceKept s) (look a k : Nat) :
    bits s look (8 * a) (8 * k) = ∑ j ∈ Finset.range k, sliceByte s (a + j) * 256 ^ (k - 1 - j) := by
  induction k with
  | zero => rfl
  | succ k ih =>
    have hshift : ∀ j ∈ Finset.range k,
        sliceByte s (a + j) * 256 ^ (k - 1 - j) * 2 ^ 8 = sliceByte s (a + j) * 256 ^ (k + 1 - 1 - j) := by
      intro j hj
      have hlt := Finset.mem_range.mp hj
      rw [Nat.mul_assoc, show (2 : Nat) ^ 8 = 256 from rfl, ← Nat.pow_succ,
        show (k - 1 - j).succ = k + 1 - 1 - j by omega]
    have hlast : bits s look (8 * (a + k)) 8 = sliceByte s (a + k) := by
      simpa using bits_of_sliceByte hkept look (a + k) (le_refl 8)
    rw [Nat.mul_succ, bits_add, ← Nat.mul_add, hlast, ih, Finset.sum_mul, Finset.sum_congr rfl hshift,
      Finset.sum_range_succ]
    simp

/-- Settles O4: the two laws of `bits`. -/
theorem bitsSplitAndReadWholeBytes : Obligations.BitsSplitAndReadWholeBytes :=
  ⟨bits_add, fun _ look a k hkept => bits_of_bytes hkept look a k⟩

/-- A kept slice reads the same whenever it is looked at: its bits are those of its bytes. -/
theorem bit_of_kept {s s' : State} (hkept : sliceKept s) (hkept' : sliceKept s') (hmem : s'.mem = s.mem)
    (hlen : s'.regs.len = s.regs.len) (look look' p : Nat) : bit s' look' p = bit s look p := by
  rw [bit, bit, memRead_kept hkept, memRead_kept hkept', hmem, hlen]

/-- In particular after an answer that did not bind anew. -/
theorem bits_answered {s : State} (hkept : sliceKept s) {r : Regs} (hlen : r.len = s.regs.len) (v : Value)
    (look look' p n : Nat) : bits (answered s r v) look' p n = bits s look p n :=
  bits_congr fun _ _ => bit_of_kept (s' := answered s r v) hkept hkept rfl hlen look look' _

/-! ### Laws of the cursor -/

/-- A READ that passes its checks. -/
theorem exec_read_ok {n : BitVec 7} {s : State} (hbound : s.regs.bound = true)
    (hcount : 1 ≤ n.toNat ∧ n.toNat ≤ 64) (hfits : s.regs.pos.toNat + n.toNat ≤ 2 ^ 32 - 1) :
    exec (.read n) s = .next (answered s { s.regs with pos := BitVec.ofNat 32 (s.regs.pos.toNat + n.toNat) }
      (BitVec.ofNat 64 (bits s 0 s.regs.pos.toNat n.toNat))) := by
  rw [exec_read_of_bound hbound hcount, advance_of_le hfits]

/-- A SKIP that passes its checks. -/
theorem exec_skip_ok {n : BitVec 32} {s : State} (hbound : s.regs.bound = true)
    (hfits : s.regs.pos.toNat + n.toNat ≤ 2 ^ 32 - 1) :
    exec (.skip n) s
      = .next (answered s { s.regs with pos := BitVec.ofNat 32 (s.regs.pos.toNat + n.toNat) } 0#64) := by
  rw [exec_skip_of_bound hbound, advance_of_le hfits]

/-- A READ after an answer that moved the cursor: it reads the same kept slice, from the new position. -/
theorem exec_read_moved {m : BitVec 7} {s : State} {q : Nat} (hkept : sliceKept s) (hbound : s.regs.bound = true)
    (hcount : 1 ≤ m.toNat ∧ m.toNat ≤ 64) (hfits : q + m.toNat ≤ 2 ^ 32 - 1) (v : Value) :
    exec (.read m) (answered s { s.regs with pos := BitVec.ofNat 32 q } v)
      = .next (answered (answered s { s.regs with pos := BitVec.ofNat 32 q } v)
          { s.regs with pos := BitVec.ofNat 32 (q + m.toNat) } (BitVec.ofNat 64 (bits s 0 q m.toNat))) := by
  have hq : (answered s { s.regs with pos := BitVec.ofNat 32 q } v).regs.pos.toNat = q :=
    toNat_ofNat_pos (show q ≤ 2 ^ 32 - 1 by omega)
  have hbits : bits (answered s { s.regs with pos := BitVec.ofNat 32 q } v) 0 q m.toNat = bits s 0 q m.toNat :=
    bits_answered (r := { s.regs with pos := BitVec.ofNat 32 q }) hkept rfl v 0 0 q m.toNat
  have hread := exec_read_ok (s := answered s { s.regs with pos := BitVec.ofNat 32 q } v) hbound hcount
    (hq.symm ▸ hfits)
  rw [hq, hbits] at hread
  exact hread

/-- Settles O41: the second READ starts where the first ended, over the same bits, and `bits` splits there. -/
theorem readsCompose : Obligations.ReadsCompose := by
  intro n m s hkept hbound hn hm hsum hfits
  have hcount : (n + m).toNat = n.toNat + m.toNat := by rw [BitVec.toNat_add, Nat.mod_eq_of_lt (by omega)]
  refine ⟨_, _, _, _, _, _, exec_read_ok hbound (by omega) (by omega),
    exec_read_moved hkept hbound (by omega) hfits _, exec_read_ok hbound (by omega) (by omega), ?_,
    List.append_assoc _ _ _, rfl, ?_⟩
  · simp only [answered, hcount, Nat.add_assoc]
  · rw [toNat_ofNat_bits _ _ _ (by omega), toNat_ofNat_bits _ _ _ (by omega), toNat_ofNat_bits _ _ _ (by omega),
      hcount, bits_add]

/-- Settles O42: a PEEK leaves the registers and the bits of a kept slice as they were. -/
theorem peekThenReadAgree : Obligations.PeekThenReadAgree := by
  intro n s hkept hbound hmin hmax hfits
  have hwide : (n.setWidth 32).toNat = n.toNat := BitVec.toNat_setWidth_of_le (by decide)
  refine ⟨_, _, _, _, _, exec_peek_of_bound hbound ⟨hmin, hmax⟩, exec_read_ok hbound ⟨hmin, hmax⟩ hfits,
    exec_skip_ok hbound (hwide.symm ▸ hfits), exec_read_ok hbound ⟨hmin, hmax⟩ hfits, ?_, rfl, ?_, rfl⟩
  · rw [bits_answered hkept rfl]
    exact List.append_assoc _ _ _
  · rw [hwide]
    rfl

/-- Settles O43: `pos + (t - pos)` is `t`, which fits the register. -/
theorem forwardAlignIsASkip : Obligations.ForwardAlignIsASkip := by
  intro t s hbound hforward
  have hdistance : (t - s.regs.pos).toNat = t.toNat - s.regs.pos.toNat := BitVec.toNat_sub_of_le hforward
  have hpos : s.regs.pos.toNat + (t - s.regs.pos).toNat = t.toNat := by omega
  refine ⟨_, exec_align_forward hbound hforward, ?_, rfl⟩
  rw [exec_skip_ok hbound (by omega), hpos, BitVec.ofNat_toNat, BitVec.setWidth_eq]

end Sys2Proof.Machine
end

section
/-! Laws of the VarField (spec/41_varfield.md sections 1 and 2): VARF as PEEK, SKIP and READ, its value ranges, the end of
the slice, and the round trip with its encoder. -/

namespace Sys2Proof.Machine

/-! ### The value and the whole command -/

/-- A value field of no bits adds nothing, so the test for a width of 0 can be left out (41_varfield.md R101). -/
theorem varfValue_eq (s : State) (W : Nat → Nat) (add : Bool) (index used : Nat) :
    varfValue s W add index used
      = bits s 1 (s.regs.pos.toNat + used) (W index) + if add = true then varfBase W index else 0 := by
  unfold varfValue
  split
  next => rfl
  next hzero => rw [Nat.eq_zero_of_not_pos hzero, bits_zero]

/-- A VARF that passes its checks. -/
theorem exec_varf_ok {w0 w1 w2 w3 : BitVec 6} {s : State} {index used : Nat} (hbound : s.regs.bound = true)
    (hwidths : widthsAtMost32 w0 w1 w2 w3) (hrow : prefixRow (bits s 0 s.regs.pos.toNat 3) index used)
    (hfits : s.regs.pos.toNat + used + varfWidth w0 w1 w2 w3 index ≤ 2 ^ 32 - 1) (add : Bool) :
    exec (.varf w0 w1 w2 w3 add) s = .next (answered s
      { s.regs with pos := BitVec.ofNat 32 (s.regs.pos.toNat + used + varfWidth w0 w1 w2 w3 index) }
      (BitVec.ofNat 64 (varfValue s (varfWidth w0 w1 w2 w3) add index used))) := by
  rw [Nat.add_assoc] at hfits
  rw [exec_varf_of_bound hbound hwidths hrow, advance_of_le hfits, Nat.add_assoc]

theorem used_le_of_prefixRow {P index used : Nat} (hrow : prefixRow P index used) : used ≤ 3 := by
  unfold prefixRow at hrow
  omega

/-! ### PEEK 3, SKIP, READ -/

/-- Settles O46: the three commands look at the bits VARF looks at, and leave the cursor where it leaves it. -/
theorem varfIsPeekSkipRead : Obligations.VarfIsPeekSkipRead := by
  intro w0 w1 w2 w3 s index used hkept hbound hwidths hrow hfits
  have hwidth := varfWidth_le hwidths index
  have hused := used_le_of_prefixRow hrow
  have hskip : (BitVec.ofNat 32 used).toNat = used := toNat_ofNat_pos (show used ≤ 2 ^ 32 - 1 by omega)
  have hread : (BitVec.ofNat 7 (varfWidth w0 w1 w2 w3 index)).toNat = varfWidth w0 w1 w2 w3 index := by
    rw [BitVec.toNat_ofNat, Nat.mod_eq_of_lt (by omega)]
  have hvalue : varfValue s (varfWidth w0 w1 w2 w3) false index used
      = bits s 1 (s.regs.pos.toNat + used) (varfWidth w0 w1 w2 w3 index) := varfValue_eq s _ false index used
  refine ⟨_, _, _, _, _, exec_peek_of_bound hbound (by decide), rfl, ?_,
    exec_skip_ok hbound (show s.regs.pos.toNat + _ ≤ _ by omega), exec_varf_ok hbound hwidths hrow hfits false, rfl,
    fun hzero => ?_, fun hpos => ?_⟩
  · rw [toNat_ofNat_bits _ _ _ (by decide)]
    exact hrow
  · rw [hvalue, hskip, hzero]
    exact ⟨rfl, rfl⟩
  · rw [hskip, hvalue]
    refine ⟨_, exec_read_moved (s := answered s s.regs _) hkept hbound (by omega)
      (show s.regs.pos.toNat + used + _ ≤ _ by omega) _, ?_, ?_⟩
    · rw [hread]
      rfl
    · rw [hread, bits_answered hkept rfl _ 1]
      rfl

/-! ### Value ranges -/

theorem varfBase_mono (W : Nat → Nat) : Monotone (varfBase W) :=
  monotone_nat_of_le_succ fun _ => Nat.le_add_right _ _

/-- The ranges base(k) .. base(k+1) - 1 follow one another, so no value lies in two (41_varfield.md R104). -/
theorem index_eq_of_mem_ranges {W : Nat → Nat} {j k v : Nat} (hj : varfBase W j ≤ v) (hj' : v < varfBase W (j + 1))
    (hk : varfBase W k ≤ v) (hk' : v < varfBase W (k + 1)) : j = k := by
  have hjk : ¬ j + 1 ≤ k := fun h => by have := varfBase_mono W h; omega
  have hkj : ¬ k + 1 ≤ j := fun h => by have := varfBase_mono W h; omega
  omega

/-- With add, the value lies in the range of its index (41_varfield.md R104). -/
theorem varfValue_mem_range (s : State) (W : Nat → Nat) (index used : Nat) :
    varfBase W index ≤ varfValue s W true index used ∧ varfValue s W true index used < varfBase W (index + 1) := by
  have hfield := bits_lt s 1 (s.regs.pos.toNat + used) (W index)
  rw [varfValue_eq, if_pos rfl, varfBase_succ]
  omega

/-- A VARF that answers OK has passed its checks. -/
theorem varf_checks_of_answers_ok {w0 w1 w2 w3 : BitVec 6} {add : Bool} {s t : State} {index used : Nat}
    (hbound : s.regs.bound = true) (hrow : prefixRow (bits s 0 s.regs.pos.toNat 3) index used)
    (hexec : exec (.varf w0 w1 w2 w3 add) s = .next t) (hok : answers s t .ok) :
    widthsAtMost32 w0 w1 w2 w3 ∧ s.regs.pos.toNat + used + varfWidth w0 w1 w2 w3 index ≤ 2 ^ 32 - 1 := by
  have hnofault : exec (.varf w0 w1 w2 w3 add) s ≠ .next (faulted s .eRange) := by
    intro hfault
    rw [hexec] at hfault
    cases hfault
    exact absurd (answers_unique hok (faulted_answers s .eRange)) (by decide)
  have hwidths : widthsAtMost32 w0 w1 w2 w3 :=
    Classical.byContradiction fun h => hnofault (exec_varf_of_bad_widths hbound h add)
  refine ⟨hwidths, Nat.not_lt.mp fun hpast => hnofault ?_⟩
  rw [Nat.add_assoc] at hpast
  rw [exec_varf_of_bound hbound hwidths hrow, advance_of_gt hpast]

/-- Settles O48: an OK answer is `varfValue`, which the response holds whole. -/
theorem varfRangesAreDisjoint : Obligations.VarfRangesAreDisjoint := by
  refine ⟨fun w0 w1 w2 w3 s t v index used hbound hrow hexec hresponse => ?_, fun W j k v => index_eq_of_mem_ranges⟩
  obtain ⟨hwidths, hfits⟩ := varf_checks_of_answers_ok hbound hrow hexec ⟨v, hresponse⟩
  rw [exec_varf_ok hbound hwidths hrow hfits] at hexec
  cases hexec
  have hv : BitVec.ofNat 64 (varfValue s (varfWidth w0 w1 w2 w3) true index used) = v := by
    simpa [answered] using hresponse
  rw [← hv, toNat_ofNat_varfValue hwidths s true used (index_le_of_prefixRow hrow)]
  obtain ⟨hlow, hhigh⟩ := varfValue_mem_range s (varfWidth w0 w1 w2 w3) index used
  exact ⟨hlow, hhigh, toNat_ofNat_pos hfits⟩

/-! ### The end of the slice -/

/-- Settles O49: past the end every bit is 0, so index 0 is selected, and base(0) is 0. -/
theorem varfPastTheEndAnswersZero : Obligations.VarfPastTheEndAnswersZero := by
  intro w0 w1 w2 w3 add s hbound hwidths hend hfits
  have hrow : prefixRow (bits s 0 s.regs.pos.toNat 3) 0 1 := by
    rw [bits_past_end 0 3 hend]
    exact .inl ⟨by decide, rfl, rfl⟩
  have hvalue : varfValue s (varfWidth w0 w1 w2 w3) add 0 1 = 0 := by
    rw [varfValue_eq, bits_past_end 1 _ (by omega), varfBase_zero, ite_self]
  rw [exec_varf_ok hbound hwidths hrow hfits, hvalue]
  rfl

/-! ### The round trip -/

/-- The index of a value is the one whose range holds it (41_varfield.md R105). -/
theorem varfIndexOf_mem_range {W : Nat → Nat} {v : Nat} (hv : v < varfBase W 4) :
    varfBase W (varfIndexOf W v) ≤ v ∧ v < varfBase W (varfIndexOf W v + 1) := by
  unfold varfIndexOf
  split_ifs with h1 h2 h3
  · exact ⟨Nat.zero_le v, h1⟩
  · exact ⟨not_lt.mp h1, h2⟩
  · exact ⟨not_lt.mp h2, h3⟩
  · exact ⟨not_lt.mp h3, hv⟩

theorem varfIndexOf_le (W : Nat → Nat) (v : Nat) : varfIndexOf W v ≤ 3 := by
  unfold varfIndexOf
  split_ifs <;> decide

/-- Three bits that begin with the mark of an index select it, whatever follows the mark (41_varfield.md R102). -/
theorem prefixRow_of_mark {s : State} {p index : Nat} (hindex : index ≤ 3)
    (hmark : bits s 0 p (varfUsed index) = varfMark index) : prefixRow (bits s 0 p 3) index (varfUsed index) := by
  interval_cases index
  · have hsplit : bits s 0 p 3 = bits s 0 p 1 * 2 ^ 2 + bits s 0 (p + 1) 2 := bits_add s 0 p 1 2
    have hrest := bits_lt s 0 (p + 1) 2
    simp only [varfUsed, varfMark] at hmark
    exact .inl ⟨by omega, rfl, rfl⟩
  · have hsplit : bits s 0 p 3 = bits s 0 p 2 * 2 ^ 1 + bits s 0 (p + 2) 1 := bits_add s 0 p 2 1
    have hrest := bits_lt s 0 (p + 2) 1
    simp only [varfUsed, varfMark] at hmark
    exact .inr (.inl ⟨by omega, by omega, rfl, rfl⟩)
  · exact .inr (.inr (.inl ⟨hmark, rfl, rfl⟩))
  · exact .inr (.inr (.inr ⟨hmark, rfl, rfl⟩))

/-- Where the stream holds the code of a value, it holds the mark of its index and then the value less its base. -/
theorem mark_and_field_of_code {s : State} {W : Nat → Nat} {p v : Nat} (hv : v < varfBase W 4)
    (hcode : bits s 0 p (varfCodeLength W v) = varfCode W v) :
    bits s 0 p (varfUsed (varfIndexOf W v)) = varfMark (varfIndexOf W v)
      ∧ bits s 0 (p + varfUsed (varfIndexOf W v)) (W (varfIndexOf W v)) = v - varfBase W (varfIndexOf W v) := by
  obtain ⟨hlow, hhigh⟩ := varfIndexOf_mem_range hv
  rw [varfBase_succ] at hhigh
  have hfield := bits_lt s 0 (p + varfUsed (varfIndexOf W v)) (W (varfIndexOf W v))
  have hoffset : v - varfBase W (varfIndexOf W v) < 2 ^ W (varfIndexOf W v) := by omega
  rw [varfCodeLength, bits_add, varfCode] at hcode
  constructor
  · have hdiv := congrArg (· / 2 ^ W (varfIndexOf W v)) hcode
    simpa [Nat.mul_add_div, Nat.add_div_of_dvd_right, Nat.div_eq_of_lt, hfield, hoffset] using hdiv
  · have hmod := congrArg (· % 2 ^ W (varfIndexOf W v)) hcode
    simpa [Nat.mod_eq_of_lt, hfield, hoffset] using hmod

/-- Settles O47: the mark selects the index, and the field and the base add up to the value. -/
theorem varfInvertsItsEncoder : Obligations.VarfInvertsItsEncoder := by
  intro w0 w1 w2 w3 s v hkept hbound hwidths hv hfits hcode
  obtain ⟨hmark, hfield⟩ := mark_and_field_of_code hv hcode
  obtain ⟨hlow, -⟩ := varfIndexOf_mem_range hv
  have hrow := prefixRow_of_mark (varfIndexOf_le (varfWidth w0 w1 w2 w3) v) hmark
  have hlook : ∀ p n, bits s 1 p n = bits s 0 p n := fun _ _ =>
    bits_congr fun _ _ => bit_of_kept hkept hkept rfl rfl 0 1 _
  have hvalue : varfValue s (varfWidth w0 w1 w2 w3) true (varfIndexOf (varfWidth w0 w1 w2 w3) v)
      (varfUsed (varfIndexOf (varfWidth w0 w1 w2 w3) v)) = v := by
    rw [varfValue_eq, if_pos rfl, hlook, hfield]
    omega
  rw [varfCodeLength, ← Nat.add_assoc] at hfits ⊢
  rw [exec_varf_ok hbound hwidths hrow hfits, hvalue]

end Sys2Proof.Machine
end

section
/-! Laws of the CRC (spec/42_crc16.md sections 1 to 3). The table step is four one-bit updates (R123), so a window is the
bit-serial CRC of its bits, and each law about windows is read off the one-bit update: it is linear, it can be undone, and
the register's own top bit fed back only shifts it. -/

namespace Sys2Proof.Machine

/-! ### The one-bit update -/

/-- What the one-bit update adds to the shifted register (42_crc16.md R123). -/
def crcFeed (b : Bool) : BitVec 16 := if b then Config.crcPoly else 0#16

theorem crcBitStep_eq (c : BitVec 16) (b : Bool) : crcBitStep c b = (c <<< 1) ^^^ crcFeed (c.getLsbD 15 ^^ b) := rfl

theorem crcFeed_false : crcFeed false = 0#16 := rfl

theorem crcFeed_xor (a b : Bool) : crcFeed (a ^^ b) = crcFeed a ^^^ crcFeed b := by
  cases a <;> cases b <;> decide

theorem getLsbD_crcFeed_zero (b : Bool) : (crcFeed b).getLsbD 0 = b := by
  cases b <;> decide

/-- The one-bit update is linear in the register and the bit together. -/
theorem crcBitStep_xor (c d : BitVec 16) (a b : Bool) :
    crcBitStep (c ^^^ d) (a ^^ b) = crcBitStep c a ^^^ crcBitStep d b := by
  have hbits : ((c ^^^ d).getLsbD 15 ^^ (a ^^ b)) = ((c.getLsbD 15 ^^ a) ^^ (d.getLsbD 15 ^^ b)) := by
    rw [BitVec.getLsbD_xor]
    simp only [Bool.xor_left_comm, Bool.xor_assoc]
  rw [crcBitStep_eq, crcBitStep_eq, crcBitStep_eq, hbits, crcFeed_xor, BitVec.shiftLeft_xor_distrib]
  ac_rfl

/-- Bit 0 of the updated register is the bit that was fed back. -/
theorem getLsbD_crcBitStep_zero (c : BitVec 16) (b : Bool) : (crcBitStep c b).getLsbD 0 = (c.getLsbD 15 ^^ b) := by
  rw [crcBitStep_eq, BitVec.getLsbD_xor, getLsbD_crcFeed_zero]
  simp

/-- The update of a register by a bit can be undone: bit 0 tells what was fed back, and the shift loses only the top
bit. -/
theorem crcBitStep_injective (b : Bool) : Function.Injective fun c => crcBitStep c b := by
  intro c d h
  have hzero := congrArg (BitVec.getLsbD · 0) h
  simp only [getLsbD_crcBitStep_zero, Bool.xor_left_inj] at hzero
  simp only [crcBitStep_eq, hzero, BitVec.xor_left_inj] at h
  refine BitVec.eq_of_getLsbD_eq fun i hi => ?_
  rcases Nat.lt_or_ge i 15 with hlow | htop
  · have hshifted := congrArg (BitVec.getLsbD · (i + 1)) h
    simpa only [BitVec.getLsbD_shiftLeft, show i + 1 < 16 by omega, Nat.add_sub_cancel, decide_true,
      Bool.true_and, show ¬ i + 1 < 1 by omega, decide_false, Bool.not_false] using hshifted
  · rw [show i = 15 by omega, hzero]

/-- Another bit gives another register. -/
theorem crcBitStep_ne {a b : Bool} (hne : a ≠ b) (c : BitVec 16) : crcBitStep c a ≠ crcBitStep c b := by
  intro h
  have hzero := congrArg (BitVec.getLsbD · 0) h
  simp only [getLsbD_crcBitStep_zero, Bool.xor_right_inj] at hzero
  exact hne hzero

/-- The register's own top bit fed to it only shifts it. -/
theorem crcBitStep_top (c : BitVec 16) : crcBitStep c (c.getLsbD 15) = c <<< 1 := by
  rw [crcBitStep_eq, Bool.xor_self]
  exact BitVec.xor_zero

/-! ### The table -/

/-- Settles O50: sixteen entries, and their 256 pairs. -/
theorem crcTableIsThePolynomialMultiples : Obligations.CrcTableIsThePolynomialMultiples := by
  unfold Obligations.CrcTableIsThePolynomialMultiples
  decide

/-- What three updates have fed back: the polynomial has no term above bit 12, so none of it reaches the top bit. -/
theorem getLsbD_crcFeeds_top (f2 f1 f0 : Bool) :
    (((crcFeed f2 <<< 1) ^^^ crcFeed f1) <<< 1 ^^^ crcFeed f0).getLsbD 15 = false := by
  revert f2 f1 f0
  decide

/-- A table entry is what the four bits of its index feed back. -/
theorem crcEntry_eq_feeds (i : BitVec 4) :
    crcEntry i = ((((crcFeed (i.getLsbD 3) <<< 1) ^^^ crcFeed (i.getLsbD 2)) <<< 1) ^^^ crcFeed (i.getLsbD 1)) <<< 1
      ^^^ crcFeed (i.getLsbD 0) := by
  revert i
  decide

/-- One more update of a register of which `k` bits are used up: `e` is what has been fed back so far. -/
theorem crcBitStep_shiftLeft_xor (c e : BitVec 16) (b : Bool) {k : Nat} (hk : k ≤ 15) (he : e.getLsbD 15 = false) :
    crcBitStep ((c <<< k) ^^^ e) b
      = (c <<< (k + 1)) ^^^ ((e <<< 1) ^^^ crcFeed (c.getLsbD (15 - k) ^^ b)) := by
  have htop : ((c <<< k) ^^^ e).getLsbD 15 = c.getLsbD (15 - k) := by
    rw [BitVec.getLsbD_xor, he, Bool.xor_false, BitVec.getLsbD_shiftLeft]
    simp [hk]
  rw [crcBitStep_eq, htop, BitVec.shiftLeft_xor_distrib, ← BitVec.shiftLeft_add, BitVec.xor_assoc]

theorem getLsbD_tableIndex (c : BitVec 16) (nib : BitVec 4) {j : Nat} (hj : j < 4) :
    (c.extractLsb' 12 4 ^^^ nib).getLsbD j = (c.getLsbD (12 + j) ^^ nib.getLsbD j) := by
  rw [BitVec.getLsbD_xor, BitVec.getLsbD_extractLsb', decide_eq_true hj, Bool.true_and]

/-- Four one-bit updates are one table step (42_crc16.md R123). -/
theorem crcStep_eq_bitSteps (c : BitVec 16) (nib : BitVec 4) :
    crcStep c nib
      = crcBitStep (crcBitStep (crcBitStep (crcBitStep c (nib.getLsbD 3)) (nib.getLsbD 2)) (nib.getLsbD 1))
          (nib.getLsbD 0) := by
  have hone := getLsbD_crcFeeds_top false false
  have htwo := getLsbD_crcFeeds_top false
  simp only [crcFeed_false, BitVec.zero_shiftLeft, BitVec.zero_xor] at hone htwo
  rw [crcStep, crcEntry_eq_feeds, getLsbD_tableIndex c nib (by decide), getLsbD_tableIndex c nib (by decide),
    getLsbD_tableIndex c nib (by decide), getLsbD_tableIndex c nib (by decide), crcBitStep_eq c,
    crcBitStep_shiftLeft_xor c _ _ (by decide) (hone _), crcBitStep_shiftLeft_xor c _ _ (by decide) (htwo _ _),
    crcBitStep_shiftLeft_xor c _ _ (by decide) (getLsbD_crcFeeds_top _ _ _)]

/-! ### The bit-serial walk -/

/-- A stream bit as the one-bit update takes it. -/
def streamBit (s : State) (p : Nat) : Bool := decide (bit s 0 p = 1)

/-- The register after `k` one-bit updates from position `p` on (42_crc16.md R123). -/
def crcBits (s : State) (p k : Nat) (c : BitVec 16) : BitVec 16 :=
  (List.range k).foldl (fun c i => crcBitStep c (streamBit s (p + i))) c

@[simp] theorem crcBits_zero (s : State) (p : Nat) (c : BitVec 16) : crcBits s p 0 c = c := rfl

theorem crcBits_succ (s : State) (p k : Nat) (c : BitVec 16) :
    crcBits s p (k + 1) c = crcBitStep (crcBits s p k c) (streamBit s (p + k)) := by
  rw [crcBits, List.range_succ, List.foldl_concat, crcBits]

/-- Bit `j` of a run of bits is the stream bit that many before its end. -/
theorem getLsbD_ofNat_bits (s : State) (p : Nat) {w n j : Nat} (hj : j < n) (hn : n ≤ w) :
    (BitVec.ofNat w (bits s 0 p n)).getLsbD j = streamBit s (p + (n - 1 - j)) := by
  have hsplit : bits s 0 p n = bits s 0 p (n - 1 - j + 1) * 2 ^ j + bits s 0 (p + (n - 1 - j + 1)) j := by
    rw [← bits_add, show n - 1 - j + 1 + j = n by omega]
  have hdiv : bits s 0 p n / 2 ^ j = bits s 0 p (n - 1 - j + 1) := by
    rw [hsplit, Nat.mul_comm, Nat.mul_add_div (Nat.two_pow_pos j), Nat.div_eq_of_lt (bits_lt s 0 _ j), Nat.add_zero]
  have hlast : bits s 0 p (n - 1 - j + 1) % 2 = bit s 0 (p + (n - 1 - j)) := by
    have hbit := bit_lt_two s 0 (p + (n - 1 - j))
    rw [bits_succ]
    omega
  rw [BitVec.getLsbD_ofNat, decide_eq_true (by omega), Bool.true_and, Nat.testBit_eq_decide_div_mod_eq, hdiv, hlast,
    streamBit]

/-- The walk by nibbles is the walk by bits, by induction on the number of nibbles. -/
theorem crcNibbles_eq_crcBits (s : State) (k p : Nat) (c : BitVec 16) :
    crcNibbles s k p c = crcBits s p (4 * k) c := by
  induction k with
  | zero => rfl
  | succ k ih =>
    have hbit : ∀ j < 4, (BitVec.ofNat 4 (bits s 0 (p + 4 * k) 4)).getLsbD j = streamBit s (p + (4 * k + (3 - j))) :=
      fun j hj => (getLsbD_ofNat_bits s _ hj le_rfl).trans (by rw [Nat.add_assoc])
    rw [crcNibbles_add, ih, crcNibbles_succ, crcNibbles_zero, crcStep_eq_bitSteps, hbit 3 (by decide),
      hbit 2 (by decide), hbit 1 (by decide), hbit 0 (by decide), Nat.mul_succ]
    simp only [crcBits_succ, ← Nat.add_assoc, Nat.reduceSub, Nat.add_zero]

/-- A window's residual is the bit-serial CRC of its bits. -/
theorem crcWindow_eq_crcBits (s : State) (start nbytes : Nat) :
    crcWindow s start nbytes = crcBits s start (8 * nbytes) Config.crcInit := by
  rw [crcWindow, crcNibbles_eq_crcBits, ← Nat.mul_assoc]

/-- Settles O53: the step, and the window by induction on its nibbles. -/
theorem crcEqualsItsBitSerialForm : Obligations.CrcEqualsItsBitSerialForm :=
  ⟨crcStep_eq_bitSteps, crcWindow_eq_crcBits⟩

/-! ### Laws of the walk -/

section
variable {s t e : State} {p k : Nat}

/-- The walk is linear in the stream and the register together. -/
theorem crcBits_xor (h : ∀ i < k, streamBit t (p + i) = (streamBit s (p + i) ^^ streamBit e (p + i)))
    (c d : BitVec 16) : crcBits t p k (c ^^^ d) = crcBits s p k c ^^^ crcBits e p k d := by
  induction k with
  | zero => rfl
  | succ k ih =>
    rw [crcBits_succ, crcBits_succ, crcBits_succ, ih fun i hi => h i (by omega), h k (by omega), crcBitStep_xor]

theorem crcBits_congr (h : ∀ i < k, streamBit t (p + i) = streamBit s (p + i)) (c : BitVec 16) :
    crcBits t p k c = crcBits s p k c := by
  induction k with
  | zero => rfl
  | succ k ih => rw [crcBits_succ, crcBits_succ, ih fun i hi => h i (by omega), h k (by omega)]

/-- One inverted bit shows to the end: at it the registers part, and no later update brings them together. -/
theorem crcBits_ne {j : Nat} (hj : j < k) (hinverted : streamBit t (p + j) ≠ streamBit s (p + j))
    (hsame : ∀ i < k, i ≠ j → streamBit t (p + i) = streamBit s (p + i)) (c : BitVec 16) :
    crcBits t p k c ≠ crcBits s p k c := by
  induction k with
  | zero => exact absurd hj (Nat.not_lt_zero j)
  | succ k ih =>
    rw [crcBits_succ, crcBits_succ]
    rcases Nat.lt_succ_iff_lt_or_eq.mp hj with hlt | rfl
    · rw [hsame k (Nat.lt_succ_self k) (Nat.ne_of_gt hlt)]
      exact (crcBitStep_injective _).ne (ih hlt fun i hi => hsame i (by omega))
    · rw [crcBits_congr fun i hi => hsame i (by omega) (Nat.ne_of_lt hi)]
      exact crcBitStep_ne hinverted _

/-- Zero bits leave a register of 0 as it is. -/
theorem crcBits_of_zero (h : ∀ i < k, streamBit s (p + i) = false) : crcBits s p k 0#16 = 0#16 := by
  induction k with
  | zero => rfl
  | succ k ih =>
    rw [crcBits_succ, ih fun i hi => h i (by omega), h k (by omega)]
    decide

/-- A register fed its own bits, the most significant first, is shifted out. -/
theorem crcBits_of_own_bits {c : BitVec 16} (hk : k ≤ 16) (h : ∀ i < k, streamBit s (p + i) = c.getLsbD (15 - i)) :
    crcBits s p k c = c <<< k := by
  induction k with
  | zero => exact (BitVec.shiftLeft_zero c).symm
  | succ k ih =>
    have htop : c.getLsbD (15 - k) = (c <<< k).getLsbD 15 := by
      rw [BitVec.getLsbD_shiftLeft, decide_eq_true (by decide), decide_eq_false (by omega)]
      rfl
    rw [crcBits_succ, ih (by omega) fun i hi => h i (by omega), h k (by omega), htop, crcBitStep_top,
      ← BitVec.shiftLeft_add]

end

/-! ### Laws of windows -/

/-- Settles O54: a sum mod 2 of bits is their exclusive-or. -/
theorem crcIsAffineInTheData : Obligations.CrcIsAffineInTheData := by
  intro s e t start nbytes hsum
  have hbits : ∀ i < 8 * nbytes,
      streamBit t (start + i) = (streamBit s (start + i) ^^ streamBit e (start + i)) := by
    intro i hi
    have hs := bit_lt_two s 0 (start + i)
    have he := bit_lt_two e 0 (start + i)
    rw [streamBit, streamBit, streamBit, hsum _ (by omega) (by omega)]
    interval_cases bit s 0 (start + i) <;> interval_cases bit e 0 (start + i) <;> rfl
  rw [crcNibbles_eq_crcBits, ← Nat.mul_assoc, crcWindow_eq_crcBits, crcWindow_eq_crcBits, ← crcBits_xor hbits,
    BitVec.xor_zero]

/-- A longer window goes on from the residual of the shorter one. -/
theorem crcWindow_add (s : State) (start n m : Nat) :
    crcWindow s start (n + m) = crcBits s (start + 8 * n) (8 * m) (crcWindow s start n) := by
  rw [crcWindow, Nat.mul_add, crcNibbles_add, crcNibbles_eq_crcBits, ← Nat.mul_assoc, ← Nat.mul_assoc, crcWindow]

/-- Settles O55: the residual, followed by its own bits, is shifted out of the register. -/
theorem appendedCrcMakesTheWindowGood : Obligations.AppendedCrcMakesTheWindowGood := by
  intro s start n hbound hn hresidual
  have hlen : (BitVec.ofNat 24 (n + 2)).toNat = n + 2 := by rw [BitVec.toNat_ofNat, Nat.mod_eq_of_lt hn]
  have hown : crcWindow s start.toNat n = BitVec.ofNat 16 (bits s 0 (start.toNat + 8 * n) 16) := by
    rw [hresidual, BitVec.ofNat_toNat, BitVec.setWidth_eq]
  have hgood : crcWindow s start.toNat (n + 2) = 0#16 := by
    rw [crcWindow_add, crcBits_of_own_bits (by decide) fun i hi => ?_, BitVec.shiftLeft_eq_zero (by decide)]
    rw [hown, getLsbD_ofNat_bits s _ (by omega) le_rfl, show 16 - 1 - (15 - i) = i by omega]
  rw [exec_crcchk_of_bound hbound, hlen, hgood]
  rfl

/-- Settles O56: the two streams differ at the one bit, so their registers do at the end of the window. -/
theorem singleBitErrorsAreDetected : Obligations.SingleBitErrorsAreDetected := by
  intro s t start nbytes q hstart hend hbits hgood
  have hs := bit_lt_two s 0 q
  have hq : start + (q - start) = q := by omega
  have hinverted : streamBit t (start + (q - start)) ≠ streamBit s (start + (q - start)) := by
    rw [hq, streamBit, streamBit, hbits q hstart hend, if_pos rfl]
    interval_cases bit s 0 q <;> decide
  have hsame : ∀ i < 8 * nbytes, i ≠ q - start → streamBit t (start + i) = streamBit s (start + i) := by
    intro i hi hne
    rw [streamBit, streamBit, hbits _ (by omega) (by omega), if_neg (by omega)]
  rw [← hgood, crcWindow_eq_crcBits, crcWindow_eq_crcBits]
  exact crcBits_ne (by omega) hinverted hsame _

/-- Settles O57: a good window has left 0 in the register, and zero bits keep it there. -/
theorem trailingZerosKeepAWindowGood : Obligations.TrailingZerosKeepAWindowGood := by
  intro s start n m
  refine ⟨rfl, fun hgood hzeros => ?_⟩
  rw [crcWindow_add, hgood]
  refine crcBits_of_zero fun i hi => ?_
  rw [streamBit, hzeros _ (by omega) (by omega)]
  rfl

/-- Settles O58: past the shorter slice the bits of both are 0, of one by R31 and of the other by its zero bytes. -/
theorem windowsPastTheEndAreZeroFilled : Obligations.WindowsPastTheEndAreZeroFilled := by
  intro s t start nbytes hs ht hlen hsame hzeros
  have hbytes : ∀ a, sliceByte t a = sliceByte s a := by
    intro a
    unfold sliceByte
    rcases Nat.lt_or_ge a s.regs.len.toNat with hin | hpast
    · rw [if_pos hin, if_pos (by omega), hsame a hin]
    · rw [if_neg (Nat.not_lt.mpr hpast)]
      split
      · rw [hzeros a hpast ‹_›]
        rfl
      · rfl
  refine crcNibbles_congr _ fun i _ => ?_
  have hdiv : 8 * ((start + i) / 8) + (start + i) % 8 = start + i := Nat.div_add_mod _ 8
  have hmod : (start + i) % 8 < 8 := Nat.mod_lt _ (by decide)
  rw [← hdiv, bit_of_sliceByte hs 0 _ hmod, bit_of_sliceByte ht 0 _ hmod, hbytes]

end Sys2Proof.Machine
end
